-- ==== Sys2Proof/Word.lean ====
section
/-! DEFINITION. The value domains of the machine: Word, Cell, register names, operands (10_state.md R10 to R13). -/

namespace Sys2Proof

/-- A Word: an unsigned integer in [0, 32767], the native data unit (R10). -/
abbrev Word := BitVec 15

/-- A Cell: the 16-bit container of a memory location, a stack entry and `pc` (R11). -/
abbrev Cell := BitVec 16

/-- A byte of a program image (R172). Memory itself has no bytes (R30). -/
abbrev Byte := BitVec 8

/-- The eight general registers, one bank, none hard-wired (R12); the names are R8's. -/
inductive Reg where
  | r0 | r1 | r2 | r3 | r4 | r5 | r6 | r7
  deriving DecidableEq, Repr

/-- A value operand: a literal that stands for itself, or a reference to a register (R52). -/
inductive Operand where
  /-- A literal, 0 to 32767. -/
  | lit (v : Word)
  /-- The content of a register. -/
  | reg (r : Reg)
  deriving DecidableEq, Repr

end Sys2Proof
end

