-- ==== Sys2Proof/Config.lean ====
section
/-! DEFINITION. The parameters of the core (00_scope.md R5), the open parameters, and the operand roles of the
22 mnemonics (30_encoding.md R53 to R56). -/

namespace Sys2Proof

/-- All arithmetic is modulo this (R5 `MODULUS`). -/
@[simp] abbrev Config.modulus : Nat := 32768

/-- Valid addresses are 0 to `memCells - 1` (R5 `MEM_CELLS`). -/
@[simp] abbrev Config.memCells : Nat := 32768

/-- The raw operand value that addresses register 0 (R5 `REG_BASE`). -/
@[simp] abbrev Config.regBase : Nat := 32768

/-- The raw operand value that addresses register 7 (R5 `REG_TOP`). -/
@[simp] abbrev Config.regTop : Nat := 32775

/-- The largest valid opcode Cell (R5 `OPCODE_MAX`). -/
@[simp] abbrev Config.opcodeMax : Nat := 21

/-- The longest instruction, in Cells (R50). -/
@[simp] abbrev Config.maxLength : Nat := 4

/-- `HOST_CANCEL`: whether the host has a cancellation flag (R5, R160). OPEN in the spec: nothing here fixes it. -/
opaque Config.hostCancel : Bool

/-- Whether the breakpoints survive a `load`. R152 takes this as open: nothing here fixes it. -/
opaque Config.breakpointsSurviveLoad : Bool

/-- The same of the watches (R152). -/
opaque Config.watchesSurviveLoad : Bool

/-- The same of the trace flag (R152). -/
opaque Config.traceSurvivesLoad : Bool

/-- The 22 mnemonics in the order the source lists them (R55, R56). `inp` is the table's `in`. -/
inductive Op where
  | halt | set | push | pop | eq | gt | jmp | jt | jf | add | mult | mod
  | and | or | not | rmem | wmem | call | ret | out | inp | noop
  deriving DecidableEq, Repr

/-- The role of an operand position (R53). -/
inductive Role where
  /-- Names the register to be written; not resolved. -/
  | dest
  /-- Resolved to a Word before the instruction acts. -/
  | value
  deriving DecidableEq, Repr

/-- The roles of the operands a, b, c of each mnemonic: the formats N, V, D, DV, VV, DVV (R54, R56). -/
def Op.roles : Op → List Role
  | .halt => []
  | .set => [.dest, .value]
  | .push => [.value]
  | .pop => [.dest]
  | .eq => [.dest, .value, .value]
  | .gt => [.dest, .value, .value]
  | .jmp => [.value]
  | .jt => [.value, .value]
  | .jf => [.value, .value]
  | .add => [.dest, .value, .value]
  | .mult => [.dest, .value, .value]
  | .mod => [.dest, .value, .value]
  | .and => [.dest, .value, .value]
  | .or => [.dest, .value, .value]
  | .not => [.dest, .value]
  | .rmem => [.dest, .value]
  | .wmem => [.value, .value]
  | .call => [.value]
  | .ret => []
  | .out => [.value]
  | .inp => [.dest]
  | .noop => []

/-- The number of operand Cells (R56). -/
def Op.arity (o : Op) : Nat := o.roles.length

end Sys2Proof
end

