-- ==== Sys2Proof/Syntax.lean ====
section
/-! DEFINITION. The abstract syntax: one constructor per row of spec/opcode_table.json (30_encoding.md R56). -/

namespace Sys2Proof

/-- The 22 instructions. A destination operand is a register, a value operand an `Operand` (R53). -/
inductive Instr where
  | halt
  | set (a : Reg) (b : Operand)
  | push (a : Operand)
  | pop (a : Reg)
  | eq (a : Reg) (b c : Operand)
  | gt (a : Reg) (b c : Operand)
  | jmp (a : Operand)
  | jt (a b : Operand)
  | jf (a b : Operand)
  | add (a : Reg) (b c : Operand)
  | mult (a : Reg) (b c : Operand)
  | mod (a : Reg) (b c : Operand)
  | and (a : Reg) (b c : Operand)
  | or (a : Reg) (b c : Operand)
  | not (a : Reg) (b : Operand)
  | rmem (a : Reg) (b : Operand)
  | wmem (a b : Operand)
  | call (a : Operand)
  | ret
  | out (a : Operand)
  /-- `in a` of the table (`in` is a word of Lean's own). -/
  | inp (a : Reg)
  | noop
  deriving DecidableEq, Repr

/-- The mnemonic of an instruction. -/
def Instr.op : Instr → Op
  | .halt => .halt
  | .set _ _ => .set
  | .push _ => .push
  | .pop _ => .pop
  | .eq _ _ _ => .eq
  | .gt _ _ _ => .gt
  | .jmp _ => .jmp
  | .jt _ _ => .jt
  | .jf _ _ => .jf
  | .add _ _ _ => .add
  | .mult _ _ _ => .mult
  | .mod _ _ _ => .mod
  | .and _ _ _ => .and
  | .or _ _ _ => .or
  | .not _ _ => .not
  | .rmem _ _ => .rmem
  | .wmem _ _ => .wmem
  | .call _ => .call
  | .ret => .ret
  | .out _ => .out
  | .inp _ => .inp
  | .noop => .noop

/-- The length of an instruction in Cells: `1 + arity` (R57). -/
def Instr.length (i : Instr) : Nat := 1 + i.op.arity

end Sys2Proof
end

