-- ==== Sys2Proof/WellFormed.lean ====
section
/-! DEFINITION. Which Cells may stand where (30_encoding.md R51 to R53, R58, R59), and where an instruction fits.
The types of `Instr` leave no ill-formed operand: what can be ill-formed is the Cells it is written in and the
address it stands at, and those are checked here. -/

namespace Sys2Proof

/-- A valid opcode Cell: 0 to 21, compared as a whole 16-bit number (R51, R58). -/
def opcodeCellOk (c : Cell) : Bool := c.toNat ≤ Config.opcodeMax

/-- A valid value-operand Cell: a literal or a register reference (R52, R59). -/
def valueCellOk (c : Cell) : Bool := c.toNat ≤ Config.regTop

/-- A valid destination-operand Cell: a register reference and nothing else (R59, R61). -/
def destCellOk (c : Cell) : Bool := Config.regBase ≤ c.toNat && c.toNat ≤ Config.regTop

/-- The check of one operand Cell by the role of its position. -/
def operandCellOk : Role → Cell → Bool
  | .dest, c => destCellOk c
  | .value, c => valueCellOk c

/-- The operand Cells fit the roles one for one (R50, R53). -/
def operandCellsOk : List Role → List Cell → Bool
  | [], [] => true
  | r :: rs, c :: cs => operandCellOk r c && operandCellsOk rs cs
  | _, _ => false

/-- An instruction at address `p` has all its Cells inside memory (R62, R132). -/
def Instr.fitsAt (i : Instr) (p : Nat) : Bool := p + i.length ≤ Config.memCells

end Sys2Proof
end

