-- ==== Sys2Proof/Decode.lean ====
section
/-! DEFINITION. The opcode numbering, the decoder from Cells to instructions, and the encoder (30_encoding.md R50 to R62). -/

namespace Sys2Proof

/-- A Word placed in a Cell unchanged (R11 `zext_16`). -/
def zext16 (w : Word) : Cell := w.setWidth 16

/-- The low 15 bits of a Cell (R6 `c[14:0]`). -/
def low15 (c : Cell) : Word := c.setWidth 15

/-- The number of a register (R13). -/
def Reg.num : Reg → Nat
  | .r0 => 0 | .r1 => 1 | .r2 => 2 | .r3 => 3 | .r4 => 4 | .r5 => 5 | .r6 => 6 | .r7 => 7

/-- The register of a number, none above 7 (R13). -/
def Reg.ofNum : Nat → Option Reg
  | 0 => some .r0 | 1 => some .r1 | 2 => some .r2 | 3 => some .r3
  | 4 => some .r4 | 5 => some .r5 | 6 => some .r6 | 7 => some .r7
  | _ => none

/-- The opcode numbers: the spec's configuration table (R55, R56, decision D1). -/
def Op.number : Op → Nat
  | .halt => 0 | .set => 1 | .push => 2 | .pop => 3 | .eq => 4 | .gt => 5
  | .jmp => 6 | .jt => 7 | .jf => 8 | .add => 9 | .mult => 10 | .mod => 11
  | .and => 12 | .or => 13 | .not => 14 | .rmem => 15 | .wmem => 16 | .call => 17
  | .ret => 18 | .out => 19 | .inp => 20 | .noop => 21

/-- The mnemonic of an opcode number, none outside 0 to 21 (R56, R58). -/
def Op.ofNumber : Nat → Option Op
  | 0 => some .halt | 1 => some .set | 2 => some .push | 3 => some .pop | 4 => some .eq | 5 => some .gt
  | 6 => some .jmp | 7 => some .jt | 8 => some .jf | 9 => some .add | 10 => some .mult | 11 => some .mod
  | 12 => some .and | 13 => some .or | 14 => some .not | 15 => some .rmem | 16 => some .wmem | 17 => some .call
  | 18 => some .ret | 19 => some .out | 20 => some .inp | 21 => some .noop
  | _ => none

/-- Why Cells do not decode. -/
inductive DecodeError where
  /-- There is no Cell at offset `k` from the opcode Cell (R62: the fetch past the top of memory). -/
  | missing (k : Nat)
  /-- The opcode Cell is above 21 (R58). -/
  | invalidOpcode (op : Cell)
  /-- The operand Cell is invalid in its position (R59). -/
  | invalidOperand (w : Cell)
  deriving DecidableEq, Repr

/-- A raw Cell in a value position: the literal and register cases of `val`, before the register is read (R60). -/
def decodeValue (w : Cell) : Except DecodeError Operand :=
  if w.toNat < Config.regBase then .ok (.lit (low15 w))
  else
    match Reg.ofNum (w.toNat - Config.regBase) with
    | some r => .ok (.reg r)
    | none => .error (.invalidOperand w)

/-- A raw Cell in a destination position: `dst` (R61). -/
def decodeDest (w : Cell) : Except DecodeError Reg :=
  if w.toNat < Config.regBase then .error (.invalidOperand w)
  else
    match Reg.ofNum (w.toNat - Config.regBase) with
    | some r => .ok r
    | none => .error (.invalidOperand w)

/-- The value operand at offset `k`: its Cell is fetched, then validated (R62). -/
def takeValue (k : Nat) : List Cell → Except DecodeError (Operand × List Cell)
  | [] => .error (.missing k)
  | w :: rest =>
    match decodeValue w with
    | .ok o => .ok (o, rest)
    | .error e => .error e

/-- The destination operand at offset `k`: its Cell is fetched, then validated (R62). -/
def takeDest (k : Nat) : List Cell → Except DecodeError (Reg × List Cell)
  | [] => .error (.missing k)
  | w :: rest =>
    match decodeDest w with
    | .ok d => .ok (d, rest)
    | .error e => .error e

/-- Format `V` (R54). -/
def formatV (mk : Operand → Instr) (cs : List Cell) : Except DecodeError (Instr × List Cell) :=
  match takeValue 1 cs with
  | .ok (a, rest) => .ok (mk a, rest)
  | .error e => .error e

/-- Format `D` (R54). -/
def formatD (mk : Reg → Instr) (cs : List Cell) : Except DecodeError (Instr × List Cell) :=
  match takeDest 1 cs with
  | .ok (a, rest) => .ok (mk a, rest)
  | .error e => .error e

/-- Format `DV` (R54). -/
def formatDV (mk : Reg → Operand → Instr) (cs : List Cell) : Except DecodeError (Instr × List Cell) :=
  match takeDest 1 cs with
  | .error e => .error e
  | .ok (a, cs) =>
    match takeValue 2 cs with
    | .error e => .error e
    | .ok (b, rest) => .ok (mk a b, rest)

/-- Format `VV` (R54). -/
def formatVV (mk : Operand → Operand → Instr) (cs : List Cell) : Except DecodeError (Instr × List Cell) :=
  match takeValue 1 cs with
  | .error e => .error e
  | .ok (a, cs) =>
    match takeValue 2 cs with
    | .error e => .error e
    | .ok (b, rest) => .ok (mk a b, rest)

/-- Format `DVV` (R54). -/
def formatDVV (mk : Reg → Operand → Operand → Instr) (cs : List Cell) : Except DecodeError (Instr × List Cell) :=
  match takeDest 1 cs with
  | .error e => .error e
  | .ok (a, cs) =>
    match takeValue 2 cs with
    | .error e => .error e
    | .ok (b, cs) =>
      match takeValue 3 cs with
      | .error e => .error e
      | .ok (c, rest) => .ok (mk a b c, rest)

/-- The operands of a mnemonic, read from the Cells after its opcode Cell (R56). -/
def decodeOperands : Op → List Cell → Except DecodeError (Instr × List Cell)
  | .halt, cs => .ok (.halt, cs)
  | .set, cs => formatDV .set cs
  | .push, cs => formatV .push cs
  | .pop, cs => formatD .pop cs
  | .eq, cs => formatDVV .eq cs
  | .gt, cs => formatDVV .gt cs
  | .jmp, cs => formatV .jmp cs
  | .jt, cs => formatVV .jt cs
  | .jf, cs => formatVV .jf cs
  | .add, cs => formatDVV .add cs
  | .mult, cs => formatDVV .mult cs
  | .mod, cs => formatDVV .mod cs
  | .and, cs => formatDVV .and cs
  | .or, cs => formatDVV .or cs
  | .not, cs => formatDV .not cs
  | .rmem, cs => formatDV .rmem cs
  | .wmem, cs => formatVV .wmem cs
  | .call, cs => formatV .call cs
  | .ret, cs => .ok (.ret, cs)
  | .out, cs => formatV .out cs
  | .inp, cs => formatD .inp cs
  | .noop, cs => .ok (.noop, cs)

/-- The decoder: the instruction at the front of a list of Cells and the Cells after it, or the first check that
fails in the order of R62 (opcode Cell, opcode, then each operand's Cell and its validity, a before b before c). -/
def decode : List Cell → Except DecodeError (Instr × List Cell)
  | [] => .error (.missing 0)
  | op :: cs =>
    match Op.ofNumber op.toNat with
    | none => .error (.invalidOpcode op)
    | some o => decodeOperands o cs

/-- The Cell of a register reference: `32768 + i` (R13). -/
def encodeReg (r : Reg) : Cell := BitVec.ofNat 16 (Config.regBase + r.num)

/-- The Cell of a value operand (R54). -/
def encodeOperand : Operand → Cell
  | .lit v => zext16 v
  | .reg r => encodeReg r

/-- The operand Cells of an instruction, in order (R54). -/
def Instr.operandCells : Instr → List Cell
  | .halt => []
  | .set a b => [encodeReg a, encodeOperand b]
  | .push a => [encodeOperand a]
  | .pop a => [encodeReg a]
  | .eq a b c => [encodeReg a, encodeOperand b, encodeOperand c]
  | .gt a b c => [encodeReg a, encodeOperand b, encodeOperand c]
  | .jmp a => [encodeOperand a]
  | .jt a b => [encodeOperand a, encodeOperand b]
  | .jf a b => [encodeOperand a, encodeOperand b]
  | .add a b c => [encodeReg a, encodeOperand b, encodeOperand c]
  | .mult a b c => [encodeReg a, encodeOperand b, encodeOperand c]
  | .mod a b c => [encodeReg a, encodeOperand b, encodeOperand c]
  | .and a b c => [encodeReg a, encodeOperand b, encodeOperand c]
  | .or a b c => [encodeReg a, encodeOperand b, encodeOperand c]
  | .not a b => [encodeReg a, encodeOperand b]
  | .rmem a b => [encodeReg a, encodeOperand b]
  | .wmem a b => [encodeOperand a, encodeOperand b]
  | .call a => [encodeOperand a]
  | .ret => []
  | .out a => [encodeOperand a]
  | .inp a => [encodeReg a]
  | .noop => []

/-- The encoder: the opcode Cell, then the operand Cells (R50). -/
def encode (i : Instr) : List Cell := BitVec.ofNat 16 i.op.number :: i.operandCells

/-- The four Cells that the number `w` of `nbits` bits stands for: bit 0 of `w` is bit 0 of the first Cell, the next
Cell's bits count on from bit 16, and every bit above `nbits` is 0. -/
def cellsOfTableWord (nbits w : Nat) : List Cell :=
  let v := w % 2 ^ nbits
  [BitVec.ofNat 16 v, BitVec.ofNat 16 (v / 65536), BitVec.ofNat 16 (v / 65536 ^ 2), BitVec.ofNat 16 (v / 65536 ^ 3)]

/-- What the decoder reads from an instruction written as one number (the numbering of spec/opcode_table.json). -/
def decodeTableWord (nbits w : Nat) : Option Instr :=
  match decode (cellsOfTableWord nbits w) with
  | .ok (i, _) => some i
  | .error _ => none

end Sys2Proof
end

