-- ==== Sys2Proof/Machine/State.lean ====
section
/-! DEFINITION. The state of the machine as plain data, and its value at reset (10_state.md R10 to R29;
60_exceptions.md R150 to R160 for the host's part). -/

namespace Sys2Proof.Machine

/-- The register file: eight Words (R12). -/
structure RegFile where
  r0 : Word := 0
  r1 : Word := 0
  r2 : Word := 0
  r3 : Word := 0
  r4 : Word := 0
  r5 : Word := 0
  r6 : Word := 0
  r7 : Word := 0
  deriving DecidableEq, Repr

/-- Memory: (address, Cell) pairs, addresses strictly rising, no Cell 0, every address below 32768 (R23, R30).
An address that is not listed reads 0, the value every Cell outside a program image has after a load (R29). -/
abbrev Memory := List (Nat × Cell)

/-- The run states seen by the host (R19). -/
inductive Mode where
  /-- "not running" -/
  | stopped
  /-- "executing until a stop condition" -/
  | running
  /-- "VM executed `halt` or a fatal error occurred" -/
  | halted
  deriving DecidableEq, Repr

/-- The six fault causes (R131). -/
inductive FaultCause where
  | outOfBounds
  | invalidOperand
  | invalidOpcode
  | stackUnderflow
  | divisionByZero
  | valueOutOfRange
  deriving DecidableEq, Repr

/-- What `raise <Cause>(info)` carries (R131). -/
structure Raise where
  cause : FaultCause
  info : Option Cell
  deriving DecidableEq, Repr

/-- A filled fault record: the triple `(cause, at, info)` (R20). -/
structure FaultRecord where
  cause : FaultCause
  /-- The spec's `at`: the address of the opcode Cell of the faulting instruction. -/
  atPc : Cell
  info : Option Cell
  deriving DecidableEq, Repr

/-- An address breakpoint with its enabled flag (R155, R157). -/
structure Breakpoint where
  addr : Cell
  enabled : Bool
  deriving DecidableEq, Repr

/-- A register watch with its enabled flag (R156, R157). -/
structure Watch where
  reg : Reg
  enabled : Bool
  deriving DecidableEq, Repr

/-- One line of the trace: address, decoded instruction, resolved value operands (R158). -/
structure TraceLine where
  addr : Cell
  instr : Instr
  resolved : List Word
  deriving DecidableEq, Repr

/-- What a stop from `Running` to `Stopped` reports (R154 to R156, R160). -/
inductive StopReport where
  | breakpoint (addr : Cell)
  | watch (reg : Reg) (old new : Word)
  | cancelled
  deriving DecidableEq, Repr

/-- The content of a Snapshot: "Memory (32768 words), Registers (8 words), Stack (length-prefixed sequence of words), and
IP" (R159). The fields are raw Cells, so that a Snapshot can be one that `load` refuses (R151). The stack's top comes
first. -/
structure Snapshot where
  memory : List Cell
  registers : List Cell
  stack : List Cell
  pc : Cell
  deriving DecidableEq, Repr

/-- The operations of the host (R150). -/
inductive Command where
  /-- `load` of a program image, given by its bytes (R171). -/
  | loadImage (bytes : List Byte)
  /-- `load` of a Snapshot (R176). -/
  | loadSnapshot (snap : Snapshot)
  | writeRegister (reg value : Nat)
  | writeMemory (addr value : Nat)
  /-- `print @<address>` (R153). -/
  | inspectMemory (addr : Nat)
  /-- `continue()` (R154). -/
  | resume
  | setBreakpoint (addr : Cell)
  | setWatch (reg : Reg)
  | toggleTrace
  | save
  deriving DecidableEq, Repr

/-- Why a host operation is refused; a refused operation changes nothing (R151, R153, R154, R174). -/
inductive HostError where
  /-- `LoadError(OddLength)` (R174). -/
  | oddLength
  /-- `LoadError(TooLarge)` (R174). -/
  | tooLarge
  /-- A Snapshot that breaks the state invariant (R151). -/
  | badSnapshot
  /-- `OutOfBounds` of `write_memory` or of an inspection (R131, R153). -/
  | outOfBounds (addr : Nat)
  /-- A register number above 7 (R153). -/
  | badRegister (reg : Nat)
  /-- A value that is no Word (`write_register`) or no Cell (`write_memory`) (R153). -/
  | badValue (value : Nat)
  /-- The operation is not allowed in this mode (R150, R154). -/
  | notAllowed
  deriving DecidableEq, Repr

/-- What a host operation answers. -/
inductive Reply where
  | ok
  | cell (c : Cell)
  | snapshot (snap : Snapshot)
  | refused (e : HostError)
  deriving DecidableEq, Repr

/-- The host's own state (R154 to R160). The last three fields are the model's (log entry 7). -/
structure Debugger where
  /-- The address triggers, in the order they were set, no address twice (R157). -/
  breakpoints : List Breakpoint := []
  /-- The register triggers, in the order they were set, no register twice (R157). -/
  watches : List Watch := []
  /-- Whether trace is on (R158). -/
  trace : Bool := false
  /-- The observer stream, oldest line first (R158). -/
  observer : List TraceLine := []
  /-- The trigger the last stop reported (R154). -/
  report : Option StopReport := none
  /-- The breakpoint at `pc` was reported for this visit, so it is not checked again (R154, R155). -/
  skip : Bool := false
  /-- The optional cancellation flag (R160). -/
  cancel : Bool := false
  /-- The loop of `continue()` is inside a `Step` that waits in `in` (R123, R154): no check is made there (R160). -/
  inStep : Bool := false
  /-- Host operations issued and not yet performed, oldest first. -/
  script : List Command := []
  /-- What the performed host operations answered, oldest first. -/
  replies : List Reply := []
  deriving DecidableEq, Repr

/-- The whole state: the Machine State (`regs`, `pc`, `stack`, `mem`), the control state and the streams beside it
(R19 to R24), and the host's state. -/
structure State where
  regs : RegFile := {}
  /-- The instruction pointer (R16). -/
  pc : Cell := 0
  /-- The stack, top first (R18). -/
  stack : List Cell := []
  mem : Memory := []
  /-- R19. -/
  mode : Mode := .stopped
  /-- The fault record (R20). -/
  fault : Option FaultRecord := none
  /-- The output stream, oldest first (R21). -/
  output : List Word := []
  /-- The input stream, next element first (R22). -/
  input : List Word := []
  host : Debugger := {}
  deriving DecidableEq, Repr

/-- What may arrive from outside while the machine runs (R145, R150, R160). -/
inductive Arrival where
  /-- An element of the input stream (R22, R123). -/
  | word (w : Word)
  /-- A host operation, to be performed when the core is not `Running`. -/
  | command (c : Command)
  /-- A host operation that is performed on arrival, in any mode: `load`, the triggers and the trace are allowed while the
  core is `Running`, the others are refused there (R150). -/
  | direct (c : Command)
  /-- The operator sets or clears the cancellation flag (R160). -/
  | cancel (b : Bool)
  deriving DecidableEq, Repr

/-- No step of this model ends in a fault of the MODEL: a fault of the MACHINE is a next state, with the fault record
filled and the mode `Halted` (R138, `State.takeFault`), and nothing else of the spec is left without an effect. So the
type has no constructor, nobody raises it, and that is neither safe nor unsafe. -/
inductive Fault where
  deriving DecidableEq, Repr

/-- The refusals of the model. -/
inductive Refusal where
  /-- Raised by an arm of `exec` whose instruction has no meaning yet; safe. Every instruction has its meaning, so no arm
  raises it. -/
  | notModelled (mnemonic : String)
  deriving DecidableEq, Repr

/-- The outcome of a step of this machine. -/
abbrev Result := Host.Outcome State Fault Refusal

/-- The machine right after reset: the load of an image of no bytes, which R173 accepts (R29, R171). -/
def State.reset : State := {}

/-- `SNAPSHOT_CODEC`: any lossless byte layout of the Snapshots that `load` accepts (R5, R159, decision D19). It is an
argument of the byte-level save and load; nothing fixes one. DESIGN CHOICE (log entry 20): D19's "decode refuses anything
else" is read as "decode yields valid Snapshots only", so a codec may decode bytes that `encode` never gives. -/
structure SnapshotCodec (valid : Snapshot → Bool) where
  encode : Snapshot → List Byte
  decode : List Byte → Option Snapshot
  roundTrip : ∀ s, valid s = true → decode (encode s) = some s
  /-- "decode refuses anything else" (D19), read as: what it yields is valid (log entry 20). -/
  refusesInvalid : ∀ b s, decode b = some s → valid s = true

end Sys2Proof.Machine
end

