-- ==== Sys2Proof/Machine/Ops.lean ====
section
/-! DEFINITION. The operations over registers, memory, stack, streams and `pc` that every meaning uses (00_scope.md R7),
and the entry into a fault and the return from one (60_exceptions.md R138, R141). -/

namespace Sys2Proof.Machine

/-- `x[i]` (R7). -/
def RegFile.get (x : RegFile) : Reg → Word
  | .r0 => x.r0 | .r1 => x.r1 | .r2 => x.r2 | .r3 => x.r3
  | .r4 => x.r4 | .r5 => x.r5 | .r6 => x.r6 | .r7 => x.r7

/-- `x[i] <- v` (R7). -/
def RegFile.set (x : RegFile) (r : Reg) (v : Word) : RegFile :=
  match r with
  | .r0 => { x with r0 := v }
  | .r1 => { x with r1 := v }
  | .r2 => { x with r2 := v }
  | .r3 => { x with r3 := v }
  | .r4 => { x with r4 := v }
  | .r5 => { x with r5 := v }
  | .r6 => { x with r6 := v }
  | .r7 => { x with r7 := v }

/-- The Cell at an address; an address that is not listed holds 0 (R23, R29). -/
def Memory.read : Memory → Nat → Cell
  | [], _ => 0
  | (k, c) :: m, a => if k = a then c else Memory.read m a

/-- Puts a Cell at an address and keeps the canonical form: storing 0 takes the entry out. -/
def Memory.write : Memory → Nat → Cell → Memory
  | [], a, v => if v = 0 then [] else [(a, v)]
  | (k, c) :: m, a, v =>
    if a < k then (if v = 0 then (k, c) :: m else (a, v) :: (k, c) :: m)
    else if a = k then (if v = 0 then m else (a, v) :: m)
    else (k, c) :: Memory.write m a v

/-- The canonical form from address `lo` upwards: addresses strictly rising, below 32768, no Cell 0. -/
def Memory.wfFrom : Nat → Memory → Bool
  | _, [] => true
  | lo, (k, c) :: m => lo ≤ k && k < Config.memCells && c != 0 && Memory.wfFrom (k + 1) m

/-- The canonical form of memory. -/
abbrev Memory.wf (m : Memory) : Bool := Memory.wfFrom 0 m

/-- `MemRead(addr, 1)` with its bound check (R32). -/
def memRead (m : Memory) (addr : Nat) : Except Raise Cell :=
  if addr < Config.memCells then .ok (Memory.read m addr)
  else .error ⟨.outOfBounds, some (BitVec.ofNat 16 addr)⟩

/-- `MemWrite(addr, 1, v)` with its bound check (R33). -/
def memWrite (m : Memory) (addr : Nat) (v : Cell) : Except Raise Memory :=
  if addr < Config.memCells then .ok (Memory.write m addr v)
  else .error ⟨.outOfBounds, some (BitVec.ofNat 16 addr)⟩

/-- `toWord(c)`: a Cell moves to a register only if it is a Word (R11, decision D5). -/
def toWord (c : Cell) : Except Raise Word :=
  if c.toNat < Config.modulus then .ok (low15 c) else .error ⟨.valueOutOfRange, some c⟩

/-- Register `r` of a state. -/
def State.reg (s : State) (r : Reg) : Word := s.regs.get r

/-- `x[r] <- v`. -/
def State.setReg (s : State) (r : Reg) (v : Word) : State := { s with regs := s.regs.set r v }

/-- `pc <- t`. -/
def State.setPc (s : State) (t : Cell) : State := { s with pc := t }

/-- Replaces memory, after `memWrite`. -/
def State.setMem (s : State) (m : Memory) : State := { s with mem := m }

/-- `Push(c)`: always succeeds (R18). -/
def State.push (s : State) (c : Cell) : State := { s with stack := c :: s.stack }

/-- `Pop()`: the top entry and the state without it (R18). -/
def State.pop (s : State) : Except Raise (Cell × State) :=
  match s.stack with
  | [] => .error ⟨.stackUnderflow, none⟩
  | c :: rest => .ok (c, { s with stack := rest })

/-- `Out(v)` (R21). -/
def State.emit (s : State) (v : Word) : State := { s with output := s.output ++ [v] }

/-- `mode <- m` (R19). -/
def State.setMode (s : State) (m : Mode) : State := { s with mode := m }

/-- `next`: the address of the following instruction, `pc0 + 1 + arity` (R7, R63). -/
def State.next (s : State) (arity : Nat) : Cell := s.pc + BitVec.ofNat 16 (1 + arity)

/-- Fault entry, the whole of it: the record is filled, the mode is `Halted`, nothing else changes (R138). -/
def State.takeFault (s : State) (r : Raise) : State :=
  { s with fault := some ⟨r.cause, s.pc, r.info⟩, mode := .halted }

/-- The breakpoint at the present `pc` is the trigger the last stop reported (R155). -/
def Debugger.reportedAt (h : Debugger) (pc : Cell) : Bool :=
  match h.report with
  | some (.breakpoint a) => a == pc
  | _ => false

/-- The start of `continue()`, which is also the return from a fault: the record is cleared, the mode is `Running`, `pc`
is unchanged, and the breakpoint just reported at this `pc` is not checked again (R141, R154, R155). -/
def State.resume (s : State) : State :=
  { s with
    fault := none
    mode := .running
    host := { s.host with skip := s.host.reportedAt s.pc, report := none, inStep := false } }

/-- The end of a cycle that may fault: an instruction that raises takes the fault in the state before it, so that none of
its writes is seen; otherwise all its writes take effect together (R63, R137). -/
def commit (s : State) : Except Raise State → Result
  | .ok t => .next t
  | .error r => .next (s.takeFault r)

/-- `x[d] <- v; pc <- next`: the end of every instruction that only writes a register. -/
def retire (s : State) (d : Reg) (v : Word) (arity : Nat) : State := (s.setReg d v).setPc (s.next arity)

/-- The Cells from address `a` on, at most `n` of them, none at or above 32768 (R32, R62). -/
def fetchCells (m : Memory) (a : Nat) : Nat → List Cell
  | 0 => []
  | n + 1 => if a < Config.memCells then Memory.read m a :: fetchCells m (a + 1) n else []

/-- The fault that a failed decode at `pc0` raises (R62, R131). -/
def decodeRaise (pc0 : Cell) : DecodeError → Raise
  | .missing k => ⟨.outOfBounds, some (pc0 + BitVec.ofNat 16 k)⟩
  | .invalidOpcode op => ⟨.invalidOpcode, some op⟩
  | .invalidOperand w => ⟨.invalidOperand, some w⟩

/-- The `Decode` part of a cycle: the instruction at `pc` (R62). -/
def State.fetch (s : State) : Except DecodeError (Instr × List Cell) :=
  decode (fetchCells s.mem s.pc.toNat Config.maxLength)

end Sys2Proof.Machine
end

