-- ==== Sys2Proof/Machine/Operands.lean ====
section
/-! DEFINITION. Operand resolution: the register-reading half of `val` (30_encoding.md R60), and which operands an
instruction has. Validation of the raw Cells is the decoder's. -/

namespace Sys2Proof

open Machine

/-- `val`: a literal stands for itself, a register reference gives the register's present content (R60). -/
def Operand.val (o : Operand) (s : State) : Word :=
  match o with
  | .lit v => v
  | .reg r => s.reg r

/-- `val(w)` on a raw Cell, whole: literal, register content, or `InvalidOperand` (R60). -/
def rawVal (w : Cell) (s : State) : Except DecodeError Word :=
  match decodeValue w with
  | .ok o => .ok (o.val s)
  | .error e => .error e

/-- The value operands of an instruction, in order (R53, R56). -/
def Instr.valueOperands : Instr → List Operand
  | .halt => []
  | .set _ b => [b]
  | .push a => [a]
  | .pop _ => []
  | .eq _ b c => [b, c]
  | .gt _ b c => [b, c]
  | .jmp a => [a]
  | .jt a b => [a, b]
  | .jf a b => [a, b]
  | .add _ b c => [b, c]
  | .mult _ b c => [b, c]
  | .mod _ b c => [b, c]
  | .and _ b c => [b, c]
  | .or _ b c => [b, c]
  | .not _ b => [b]
  | .rmem _ b => [b]
  | .wmem a b => [a, b]
  | .call a => [a]
  | .ret => []
  | .out a => [a]
  | .inp _ => []
  | .noop => []

/-- The destination register of an instruction, if it has one (R14). -/
def Instr.dest : Instr → Option Reg
  | .halt => none
  | .set a _ => some a
  | .push _ => none
  | .pop a => some a
  | .eq a _ _ => some a
  | .gt a _ _ => some a
  | .jmp _ => none
  | .jt _ _ => none
  | .jf _ _ => none
  | .add a _ _ => some a
  | .mult a _ _ => some a
  | .mod a _ _ => some a
  | .and a _ _ => some a
  | .or a _ _ => some a
  | .not a _ => some a
  | .rmem a _ => some a
  | .wmem _ _ => none
  | .call _ => none
  | .ret => none
  | .out _ => none
  | .inp a => some a
  | .noop => none

/-- The `in` that finds the input stream empty: the only wait of the machine (R123, R149). -/
def Instr.waits (i : Instr) (s : State) : Bool :=
  match i with
  | .inp _ => s.input.isEmpty
  | _ => false

end Sys2Proof
end

