-- ==== Sys2Proof/Machine/Debugger.lean ====
section
/-! DEFINITION. The host and debug interface: the loader, snapshots, direct mutation and inspection, triggers, trace
(60_exceptions.md R150 to R160; 70_reset_and_hazards.md R171 to R176). -/

namespace Sys2Proof.Machine

/-- The Cells of a program image: bytes `2i` (low) and `2i + 1` (high) become Cell `i` (R35, R172). -/
def imageCells : List Byte → List Cell
  | lo :: hi :: rest => BitVec.ofNat 16 (lo.toNat + 256 * hi.toNat) :: imageCells rest
  | _ => []

/-- The memory that holds the given Cells from address `base` on and 0 everywhere else (R171). -/
def Memory.ofCells (base : Nat) : List Cell → Memory
  | [] => []
  | c :: cs => if c = 0 then Memory.ofCells (base + 1) cs else (base, c) :: Memory.ofCells (base + 1) cs

/-- The first `n` Cells of memory, address 0 first. -/
def Memory.toCells (m : Memory) (n : Nat) : List Cell := (List.range n).map (Memory.read m)

/-- What a `load` does to the host's state: the trigger last reported is forgotten, and whether breakpoints, watches and
the trace flag survive are the open parameters of R152. -/
def Debugger.afterLoad (h : Debugger) : Debugger :=
  { h with
    breakpoints := h.breakpoints.filter fun _ => Config.breakpointsSurviveLoad
    watches := h.watches.filter fun _ => Config.watchesSurviveLoad
    trace := h.trace && Config.traceSurvivesLoad
    report := none
    skip := false
    inStep := false }

/-- The state after a successful `load`, of an image or of a Snapshot: the Machine State is replaced wholesale, the fault
record and the output stream are empty, the mode is `Stopped` (R29 with its last paragraph, R151, R171, R176). -/
def State.loaded (s : State) (mem : Memory) (regs : RegFile) (stack : List Cell) (pc : Cell) : State :=
  { regs := regs, pc := pc, stack := stack, mem := mem, mode := .stopped, fault := none, output := []
    input := s.input, host := s.host.afterLoad }

/-- `load` of a program image (R171, R174). -/
def loadImage (b : List Byte) (s : State) : Except HostError State :=
  if b.length % 2 ≠ 0 then .error .oddLength
  else if 2 * Config.memCells < b.length then .error .tooLarge
  else .ok (s.loaded (Memory.ofCells 0 (imageCells b)) {} [] 0)

/-- The checks on a Snapshot: 32768 memory Cells, eight registers that are Words, stack entries and `pc` at most 32768
(R25, R151). -/
def Snapshot.valid (n : Snapshot) : Bool :=
  n.memory.length == Config.memCells && n.registers.length == 8
    && n.registers.all (fun c => decide (c.toNat < Config.modulus))
    && n.stack.all (fun c => decide (c.toNat ≤ Config.memCells))
    && decide (n.pc.toNat ≤ Config.memCells)

/-- The register file that eight Cells give. -/
def RegFile.ofCells (l : List Cell) : RegFile :=
  { r0 := low15 (l.getD 0 0), r1 := low15 (l.getD 1 0), r2 := low15 (l.getD 2 0), r3 := low15 (l.getD 3 0)
    r4 := low15 (l.getD 4 0), r5 := low15 (l.getD 5 0), r6 := low15 (l.getD 6 0), r7 := low15 (l.getD 7 0) }

/-- The registers as Cells, register 0 first. -/
def RegFile.cells (x : RegFile) : List Cell :=
  [zext16 x.r0, zext16 x.r1, zext16 x.r2, zext16 x.r3, zext16 x.r4, zext16 x.r5, zext16 x.r6, zext16 x.r7]

/-- `load` of a Snapshot (R151, R176). -/
def loadSnapshot (n : Snapshot) (s : State) : Except HostError State :=
  if n.valid then .ok (s.loaded (Memory.ofCells 0 n.memory) (RegFile.ofCells n.registers) n.stack n.pc)
  else .error .badSnapshot

/-- The Snapshot of a Machine State: memory, registers, stack, `pc`, and nothing else (R159). -/
def State.snapshot (s : State) : Snapshot :=
  { memory := s.mem.toCells Config.memCells, registers := s.regs.cells, stack := s.stack, pc := s.pc }

/-- The host may change registers and memory, and may `continue()`: the mode is `Stopped`, or `Halted` after a fault
(R150, R153, R154). -/
def State.mayMutate (s : State) : Bool :=
  match s.mode with
  | .stopped => true
  | .running => false
  | .halted => s.fault.isSome

/-- `write_register(reg, value)`: a register 0 to 7 and a Word, else refused (R153). -/
def writeRegister (reg value : Nat) (s : State) : Except HostError State :=
  if !s.mayMutate then .error .notAllowed
  else
    match Reg.ofNum reg with
    | none => .error (.badRegister reg)
    | some r => if value < Config.modulus then .ok (s.setReg r (BitVec.ofNat 15 value)) else .error (.badValue value)

/-- `write_memory(addr, value)`: an address below 32768 and any Cell, else refused (R153). -/
def writeMemory (addr value : Nat) (s : State) : Except HostError State :=
  if !s.mayMutate then .error .notAllowed
  else if Config.memCells ≤ addr then .error (.outOfBounds addr)
  else if value < 65536 then .ok (s.setMem (Memory.write s.mem addr (BitVec.ofNat 16 value))) else .error (.badValue value)

/-- `print @<address>`: the Cell, with nothing changed (R153). -/
def inspectMemory (addr : Nat) (s : State) : Except HostError Cell :=
  if s.mode = .running then .error .notAllowed
  else if Config.memCells ≤ addr then .error (.outOfBounds addr)
  else .ok (Memory.read s.mem addr)

/-- `continue()` from a mode that allows it; never after a clean `halt` (R154). -/
def continueRun (s : State) : Except HostError State :=
  if s.mayMutate then .ok s.resume else .error .notAllowed

/-- `set_breakpoint(address)`: idempotent; the trigger is enabled (R157). -/
def setBreakpoint (a : Cell) (s : State) : State :=
  if s.host.breakpoints.any (fun b => b.addr == a) then s
  else { s with host := { s.host with breakpoints := s.host.breakpoints ++ [⟨a, true⟩] } }

/-- `set_watch(register)`: idempotent; the trigger is enabled (R157). -/
def setWatch (r : Reg) (s : State) : State :=
  if s.host.watches.any (fun w => w.reg == r) then s
  else { s with host := { s.host with watches := s.host.watches ++ [⟨r, true⟩] } }

/-- `toggle_trace()` (R158). -/
def toggleTrace (s : State) : State := { s with host := { s.host with trace := !s.host.trace } }

/-- `save()`, while `Stopped` (R159). -/
def saveSnapshot (s : State) : Except HostError Snapshot :=
  if s.mode = .stopped then .ok s.snapshot else .error .notAllowed

/-- `save` to bytes, by whatever codec (R159, decision D19). -/
def saveBytes (codec : SnapshotCodec Snapshot.valid) (s : State) : Except HostError (List Byte) :=
  match saveSnapshot s with
  | .ok n => .ok (codec.encode n)
  | .error e => .error e

/-- `load` of a Snapshot's bytes, by the same codec; bytes that do not decode are refused (R151, R176). -/
def loadBytes (codec : SnapshotCodec Snapshot.valid) (b : List Byte) (s : State) : Except HostError State :=
  match codec.decode b with
  | some n => loadSnapshot n s
  | none => .error .badSnapshot

/-- The answer of an operation that changes the state or is refused with no change. -/
def changed (s : State) : Except HostError State → State × Reply
  | .ok t => (t, .ok)
  | .error e => (s, .refused e)

/-- One host operation: the state it leaves and its answer (R150). -/
def perform (c : Command) (s : State) : State × Reply :=
  match c with
  | .loadImage b => changed s (loadImage b s)
  | .loadSnapshot n => changed s (loadSnapshot n s)
  | .writeRegister r v => changed s (writeRegister r v s)
  | .writeMemory a v => changed s (writeMemory a v s)
  | .inspectMemory a =>
    match inspectMemory a s with
    | .ok c => (s, .cell c)
    | .error e => (s, .refused e)
  | .resume => changed s (continueRun s)
  | .setBreakpoint a => (setBreakpoint a s, .ok)
  | .setWatch r => (setWatch r s, .ok)
  | .toggleTrace => (toggleTrace s, .ok)
  | .save =>
    match saveSnapshot s with
    | .ok n => (s, .snapshot n)
    | .error e => (s, .refused e)

/-- A host operation is performed and its answer recorded. -/
def State.answer (s : State) (c : Command) : State :=
  let p := perform c s
  { p.1 with host := { p.1.host with replies := p.1.host.replies ++ [p.2] } }

/-- What happens while the core is not `Running`: the oldest issued host operation is performed and answered; with none
issued, nothing (R150). -/
def State.serveHost (s : State) : State :=
  match s.host.script with
  | [] => s
  | c :: rest => ({ s with host := { s.host with script := rest } } : State).answer c

/-- A host operation is issued, to be performed later. -/
def State.issue (s : State) (c : Command) : State := { s with host := { s.host with script := s.host.script ++ [c] } }

/-- What arrives from outside: an input element (R145 (a)), a host operation, or a change of the cancellation flag (R160).
The core does not act in it. An operation that would be performed at once is only issued while an `in` waits: the wait "blocks
the entire Debugger session" (R123; log entry 4). -/
def State.arrive (s : State) : Arrival → State
  | .word w => { s with input := s.input ++ [w] }
  | .command c => s.issue c
  | .direct c => if s.host.inStep then s.issue c else s.answer c
  | .cancel b => { s with host := { s.host with cancel := b } }

/-- There is an enabled breakpoint at an address (R155). -/
def Debugger.hasBreakpoint (h : Debugger) (a : Cell) : Bool := h.breakpoints.any fun b => b.enabled && b.addr == a

/-- The check before an instruction: an enabled breakpoint at `pc` whose visit was not yet reported (R154, R155). -/
def State.breakpointDue (s : State) : Bool := !s.host.inStep && !s.host.skip && s.host.hasBreakpoint s.pc

/-- The check before that: the cancellation flag is present and set. It is never made inside the wait of `in` (R160). -/
def State.cancelDue (s : State) : Bool := !s.host.inStep && (s.host.cancel && Config.hostCancel)

/-- A stop from `Running` to `Stopped` that reports why; the Machine State is untouched (R155, R156, R160). -/
def State.stopWith (s : State) (r : StopReport) : State :=
  { s with mode := .stopped, host := { s.host with report := some r } }

/-- The check after an instruction: the first enabled watch whose register changed (R156). -/
def State.changedWatch (s t : State) : Option Watch :=
  s.host.watches.find? fun w => w.enabled && s.reg w.reg != t.reg w.reg

/-- The trace line of a decoded instruction, emitted once, before it executes: an `in` that has begun to wait has emitted
its line (R158, log entry 6). -/
def State.traced (s : State) (i : Instr) : State :=
  if s.host.trace && !s.host.inStep then
    { s with host := { s.host with observer := s.host.observer ++ [⟨s.pc, i, i.valueOperands.map fun o => o.val s⟩] } }
  else s

/-- A completed instruction leaves the loop between two rounds, its visit to `pc` over (R154, R155). -/
def State.endRound (s : State) : State := { s with host := { s.host with skip := false, inStep := false } }

/-- The end of one round of the `continue()` loop, from the state before instruction `i` to the state `t` it left: a wait
stays inside the round; a fault and a `halt` end the loop; otherwise the round is over, and a watched register that changed
stops the core (R123, R154, R156). -/
def State.settle (s : State) (i : Instr) (t : State) : State :=
  if i.waits s then { t with host := { t.host with inStep := true } }
  else if t.mode ≠ .running then t
  else
    match s.changedWatch t with
    | none => t.endRound
    | some w => t.endRound.stopWith (.watch w.reg (s.reg w.reg) (t.reg w.reg))

end Sys2Proof.Machine
end

