-- ==== Sys2Proof/Machine/Alu.lean ====
section
/-! DEFINITION. `add`, `mult`, `mod`, `and`, `or`, `not` (43_alu.md). -/

namespace Sys2Proof.Machine

/-- An exact result reduced modulo 32768 (R100). -/
def narrow (n : Nat) : Word := BitVec.ofNat 15 (n % Config.modulus)

/-- `(b + c) mod 32768` (R100). -/
def aluAdd (b c : Word) : Word := narrow (b.toNat + c.toNat)

/-- `(b * c) mod 32768`: the exact product, then its low 15 bits (R100, R102). -/
def aluMult (b c : Word) : Word := narrow (b.toNat * c.toNat)

/-- The remainder of b by c; a divisor 0 raises `DivisionByZero` (R100, R103). -/
def aluMod (b c : Word) : Except Raise Word :=
  if c.toNat = 0 then .error ⟨.divisionByZero, none⟩ else .ok (narrow (b.toNat % c.toNat))

/-- `b ^ 0x7FFF` (R100, R106). -/
def aluNot (b : Word) : Word := b ^^^ 0x7FFF

/-- `add a b c` (R101). -/
def execAdd (d : Reg) (b c : Operand) (s : State) : Result := .next (retire s d (aluAdd (b.val s) (c.val s)) 3)

/-- `mult a b c` (R102). -/
def execMult (d : Reg) (b c : Operand) (s : State) : Result := .next (retire s d (aluMult (b.val s) (c.val s)) 3)

/-- `mod a b c` (R103). -/
def execMod (d : Reg) (b c : Operand) (s : State) : Result :=
  commit s (do
    let v ← aluMod (b.val s) (c.val s)
    pure (retire s d v 3))

/-- `and a b c` (R104). -/
def execAnd (d : Reg) (b c : Operand) (s : State) : Result := .next (retire s d (b.val s &&& c.val s) 3)

/-- `or a b c` (R105). -/
def execOr (d : Reg) (b c : Operand) (s : State) : Result := .next (retire s d (b.val s ||| c.val s) 3)

/-- `not a b` (R106). -/
def execNot (d : Reg) (b : Operand) (s : State) : Result := .next (retire s d (aluNot (b.val s)) 2)

end Sys2Proof.Machine
end

