-- ==== Sys2Proof/Machine/Flags.lean ====
section
/-! DEFINITION. The machine has no flags (10_state.md R26): a comparison's outcome is a Word in a general register, and
a conditional jump tests a resolved operand against zero. Both are here. -/

namespace Sys2Proof.Machine

/-- The Word a comparison writes: 1 or 0 (R26, R85, R86). -/
def truthWord (b : Bool) : Word := if b then 1 else 0

/-- The condition of `jt` and of `jf`: any non-zero Word is true (R91, R92). -/
def truthy (w : Word) : Bool := w != 0

end Sys2Proof.Machine
end

