-- ==== Sys2Proof/Machine/Compare.lean ====
section
/-! DEFINITION. `eq`, `gt` (41_compare.md). -/

namespace Sys2Proof.Machine

/-- `eq a b c`: compares the resolved Words (R85). -/
def execEq (d : Reg) (b c : Operand) (s : State) : Result := .next (retire s d (truthWord (b.val s == c.val s)) 3)

/-- `gt a b c`: the unsigned comparison `b > c` (R86). -/
def execGt (d : Reg) (b c : Operand) (s : State) : Result :=
  .next (retire s d (truthWord (decide ((c.val s).toNat < (b.val s).toNat))) 3)

end Sys2Proof.Machine
end

