-- ==== Sys2Proof/Machine/Control.lean ====
section
/-! DEFINITION. `jmp`, `jt`, `jf`, `call`, `ret` (42_control_transfer.md). Targets are resolved operands (R93). -/

namespace Sys2Proof.Machine

/-- A jump to a resolved target: a Word, so always an address (R93). -/
def State.jump (s : State) (t : Word) : State := s.setPc (zext16 t)

/-- `jmp a` (R90). -/
def execJmp (a : Operand) (s : State) : Result := .next (s.jump (a.val s))

/-- `jt a b` (R91). -/
def execJt (a b : Operand) (s : State) : Result :=
  .next (if truthy (a.val s) then s.jump (b.val s) else s.setPc (s.next 2))

/-- `jf a b` (R92). -/
def execJf (a b : Operand) (s : State) : Result :=
  .next (if truthy (a.val s) then s.setPc (s.next 2) else s.jump (b.val s))

/-- `call a`: pushes the address after the call, then jumps (R94). -/
def execCall (a : Operand) (s : State) : Result := .next ((s.push (s.next 1)).jump (a.val s))

/-- `ret`: `pc` is the popped Cell, not checked here (R95). -/
def execRet (s : State) : Result :=
  commit s (do
    let (c, t) ← s.pop
    pure (t.setPc c))

end Sys2Proof.Machine
end

