-- ==== Sys2Proof/Machine/DataMovement.lean ====
section
/-! DEFINITION. `set`, `push`, `pop` (40_data_movement.md). -/

namespace Sys2Proof.Machine

/-- `set a b` (R80). -/
def execSet (d : Reg) (b : Operand) (s : State) : Result := .next (retire s d (b.val s) 2)

/-- `push a` (R81). -/
def execPush (a : Operand) (s : State) : Result := .next ((s.push (zext16 (a.val s))).setPc (s.next 1))

/-- `pop a`: `StackUnderflow` first, then `ValueOutOfRange` (R82). -/
def execPop (d : Reg) (s : State) : Result :=
  commit s (do
    let (c, t) ← s.pop
    let v ← toWord c
    pure ((t.setReg d v).setPc (s.next 1)))

end Sys2Proof.Machine
end

