-- ==== Sys2Proof/Machine/MemoryAccess.lean ====
section
/-! DEFINITION. `rmem`, `wmem` (44_memory_access.md). The effective address is a resolved operand (R117). -/

namespace Sys2Proof.Machine

/-- `rmem a b`: a Cell that is no Word raises `ValueOutOfRange` (R115). -/
def execRmem (d : Reg) (b : Operand) (s : State) : Result :=
  commit s (do
    let c ← memRead s.mem (b.val s).toNat
    let v ← toWord c
    pure (retire s d v 2))

/-- `wmem a b`: writes one Cell, whose bit 15 is 0 (R116). -/
def execWmem (a b : Operand) (s : State) : Result :=
  commit s (do
    let m ← memWrite s.mem (a.val s).toNat (zext16 (b.val s))
    pure ((s.setMem m).setPc (s.next 2)))

end Sys2Proof.Machine
end

