-- ==== Sys2Proof/Machine/SystemIo.lean ====
section
/-! DEFINITION. `halt`, `out`, `in`, `noop` (45_system_io.md). -/

namespace Sys2Proof.Machine

/-- `halt`: the fault record is left as it is, `pc` is advanced (R120, decision D10). -/
def execHalt (s : State) : Result := .next ((s.setPc (s.next 0)).setMode .halted)

/-- `out a`: the whole Word goes to the output stream (R121). -/
def execOut (a : Operand) (s : State) : Result := .next ((s.emit (a.val s)).setPc (s.next 1))

/-- `in a`: takes the first element of the input stream (R122); while there is none the instruction waits, which is a
next state equal to this one (R123). -/
def execIn (d : Reg) (s : State) : Result :=
  match s.input with
  | [] => .next s
  | v :: rest => .next (retire { s with input := rest } d v 1)

/-- `noop` (R124). -/
def execNoop (s : State) : Result := .next (s.setPc (s.next 0))

end Sys2Proof.Machine
end

