-- ==== Sys2Proof/Machine/Cycle.lean ====
section
/-! DEFINITION. One round of the `continue()` loop: the host's checks, the instruction cycle, the host's check after it
(30_encoding.md R63, 60_exceptions.md R154, R161). -/

namespace Sys2Proof.Machine

/-- What the host does after the outcome of instruction `i` begun in state `s`. -/
def settleResult (s : State) (i : Instr) : Result → Result
  | .next t => .next (s.settle i t)
  | .fault f => .fault f
  | .refused r => .refused r

/-- The instruction cycle with the trace before it: `Decode`, then `Execute` (R62, R63, R158). -/
def cycle (s : State) : Result :=
  match s.fetch with
  | .error e => .next (s.takeFault (decodeRaise s.pc e))
  | .ok (i, _) => settleResult s i (exec i (s.traced i))

/-- One round in mode `Running`: cancellation, breakpoint, cycle, watch, in that order (R154). -/
def runRound (s : State) : Result :=
  if s.cancelDue then .next (s.stopWith .cancelled)
  else if s.breakpointDue then .next (s.stopWith (.breakpoint s.pc))
  else cycle s

/-- The state in which the very next round fetches and runs the instruction that the four Cells begin with: the Cells
stand at `pc` (at 0, where they would not fit below 32768), the mode is `Running` with no fault recorded, and no host
check stands in the way. -/
def State.withCells (s : State) (cs : List Cell) : State :=
  let p : Cell := if s.pc.toNat + Config.maxLength ≤ Config.memCells then s.pc else 0
  let put := fun (m : Memory) (k : Nat) => Memory.write m (p.toNat + k) (cs.getD k 0)
  { s with
    pc := p
    mem := put (put (put (put s.mem 0) 1) 2) 3
    mode := .running
    fault := none
    host := { s.host with cancel := false, report := none, inStep := false, skip := s.host.skip || s.host.hasBreakpoint p } }

end Sys2Proof.Machine
end

