-- ==== Sys2Proof/Machine/Step.lean ====
section
/-! DEFINITION. One step of the whole machine (30_encoding.md R63, 60_exceptions.md R150, R154). -/

namespace Sys2Proof.Machine

/-- One step: while `Running` one round of the `continue()` loop, otherwise the oldest host operation issued (10_state.md
R19: "the core performs instruction cycles only in `Running`"). With nothing to do the state stays as it is. -/
def step (s : State) : Host.Outcome State Fault Refusal :=
  match s.mode with
  | .running => runRound s
  | .stopped => .next s.serveHost
  | .halted => .next s.serveHost

/-- The state with an instruction, written as one number of `nbits` bits, placed where the next step fetches and runs it
(log entry 9). -/
def State.withFetchWord (s : State) (nbits w : Nat) : State := s.withCells (cellsOfTableWord nbits w)

end Sys2Proof.Machine
end

