-- ==== Sys2Proof/Safety.lean ====
section
/-! DEFINITION. The terms claims are stated in: the state invariant (10_state.md R25 and the rules of the control state),
how a run stands (70_reset_and_hazards.md R179), and what an instruction leaves unchanged. -/

namespace Sys2Proof.Machine

/-- The invariant of the whole state. Registers and memory Cells are in range by their types. -/
structure State.Inv (s : State) : Prop where
  /-- `pc` is in [0, 32768] (R16, R25). -/
  pcInRange : s.pc.toNat ≤ Config.memCells
  /-- Each stack entry is in [0, 32768] (R18, R25). -/
  stackInRange : ∀ c ∈ s.stack, c.toNat ≤ Config.memCells
  /-- Memory is in its canonical form, with no address at or above 32768 (R23). -/
  memCanonical : s.mem.wf = true
  /-- A filled fault record belongs to a core that a fault halted, and names the instruction at the unchanged `pc`
  (R20, R137, R138). -/
  faultHalted : ∀ f, s.fault = some f → s.mode = .halted ∧ f.atPc = s.pc
  /-- The host has a trigger to report only in `Stopped` (R154). -/
  reportStopped : s.host.report ≠ none → s.mode = .stopped
  /-- A breakpoint stop is at the breakpoint's address (R155). -/
  reportBreakpoint : ∀ a, s.host.report = some (.breakpoint a) → s.pc = a
  /-- Setting a trigger twice does not add it twice (R157). -/
  breakpointsOnce : (s.host.breakpoints.map Breakpoint.addr).Nodup
  /-- The same of the watches (R157). -/
  watchesOnce : (s.host.watches.map Watch.reg).Nodup
  /-- Every trigger that was set is enabled (R157). -/
  breakpointsEnabled : ∀ b ∈ s.host.breakpoints, b.enabled = true
  /-- The same of the watches (R157). -/
  watchesEnabled : ∀ w ∈ s.host.watches, w.enabled = true

/-- A clean halt: the only successful end of a run (R179 (a)). -/
def State.cleanHalt (s : State) : Prop := s.mode = .halted ∧ s.fault = none

/-- The core is `Running` and neither cancellation nor a breakpoint stops it before the next instruction (R154). -/
def State.ready (s : State) : Prop := s.mode = .running ∧ s.cancelDue = false ∧ s.breakpointDue = false

/-- A `ready` core that the host does not watch, between two rounds: no watch, no trace, no visit already reported. -/
def State.quiet (s : State) : Prop :=
  s.ready ∧ s.host.watches = [] ∧ s.host.trace = false ∧ s.host.skip = false ∧ s.host.inStep = false

/-- Every Cell of memory reads as before. -/
def SameMem (s t : State) : Prop := ∀ a, Memory.read t.mem a = Memory.read s.mem a

/-- Every register reads as before. -/
def SameRegs (s t : State) : Prop := ∀ r, t.reg r = s.reg r

/-- Every register other than `d` reads as before. -/
def SameRegsBut (d : Reg) (s t : State) : Prop := ∀ r, r ≠ d → t.reg r = s.reg r

/-- Mode, fault record and the host's state are as before. -/
def SameControl (s t : State) : Prop := t.mode = s.mode ∧ t.fault = s.fault ∧ t.host = s.host

/-- Both streams are as before. -/
def SameStreams (s t : State) : Prop := t.output = s.output ∧ t.input = s.input

/-- Nothing changed but register `d` and `pc`. -/
def OnlyRegister (d : Reg) (s t : State) : Prop :=
  SameRegsBut d s t ∧ t.stack = s.stack ∧ SameMem s t ∧ SameControl s t ∧ SameStreams s t

/-- Nothing changed but `pc`. -/
def OnlyPc (s t : State) : Prop :=
  SameRegs s t ∧ t.stack = s.stack ∧ SameMem s t ∧ SameControl s t ∧ SameStreams s t

/-- The Machine State, which a snapshot saves, is as before (R24, R159). -/
def SameMachineState (s t : State) : Prop :=
  SameRegs s t ∧ t.stack = s.stack ∧ SameMem s t ∧ t.pc = s.pc

/-- The fault `r` was taken in `s`, and that is all that happened (R137, R138). -/
def TookFault (r : Raise) (s t : State) : Prop :=
  t.fault = some ⟨r.cause, s.pc, r.info⟩ ∧ t.mode = .halted ∧ SameMachineState s t ∧ SameStreams s t ∧ t.host = s.host

/-- Machine State, fault record and streams agree: everything but the mode and the host's state. -/
def SameExceptHost (s t : State) : Prop := SameMachineState s t ∧ t.fault = s.fault ∧ SameStreams s t

/-- The first failing check of the operand Cells from offset `k` on: the Cell's address, then its validity (R62, R140). -/
def operandFault (m : Memory) (pc0 : Nat) : Nat → List Role → Option Raise
  | _, [] => none
  | k, role :: roles =>
    if Config.memCells ≤ pc0 + k then some ⟨.outOfBounds, some (BitVec.ofNat 16 (pc0 + k))⟩
    else if operandCellOk role (Memory.read m (pc0 + k)) then operandFault m pc0 (k + 1) roles
    else some ⟨.invalidOperand, some (Memory.read m (pc0 + k))⟩

/-- The fault that the decode phase at `pc` reports, written from the order of R140 and apart from the decoder: (1) the
opcode fetch, (2) the opcode, (3) each operand in turn; none when all checks pass. -/
def State.decodeFault (s : State) : Option Raise :=
  if Config.memCells ≤ s.pc.toNat then some ⟨.outOfBounds, some s.pc⟩
  else
    match Op.ofNumber (Memory.read s.mem s.pc.toNat).toNat with
    | none => some ⟨.invalidOpcode, some (Memory.read s.mem s.pc.toNat)⟩
    | some o => operandFault s.mem s.pc.toNat 1 o.roles

/-- `exec` answers a next state for which `P` holds. -/
def ExecNext (i : Instr) (s : State) (P : State → Prop) : Prop := ∃ t, exec i s = .next t ∧ P t

/-- `step` answers a next state for which `P` holds. -/
def StepNext (s : State) (P : State → Prop) : Prop := ∃ t, step s = .next t ∧ P t

end Sys2Proof.Machine
end

