-- ==== Sys2Proof/Certificates/Slice0/Obligations.lean ====
section
/-! DEFINITION. The statements for the provers. Each docstring names the rule of spec/ it formalises; where a clause rests
on one of the spec's own decisions (D<n> of 92_eei_decisions.md) or on a log entry, it says so. -/

open Sys2Proof Sys2Proof.Machine

/-! ### Encoding -/

/-- R50, R54, R56 (numbering: decision D1): the decoder gives back every instruction from its Cells, whatever follows. -/
def Obligations.DecodeOfEncodeIsTheInstruction : Prop :=
  ∀ (i : Instr) (rest : List Cell), decode (encode i ++ rest) = .ok (i, rest)

/-- R54, R56 (numbering: decision D1): the Cells that decode to an instruction are that instruction's encoding, so no two
Cell sequences mean the same instruction and no Cell is ignored. -/
def Obligations.DecodedCellsAreTheEncoding : Prop :=
  ∀ (cs : List Cell) (i : Instr) (rest : List Cell), decode cs = .ok (i, rest) → cs = encode i ++ rest

/-- Cells written out from R54, R56 and the examples of 95_test_vectors.md (numbering: decision D1), one per family. -/
def Obligations.SampleCellsDecode : Prop :=
  decode [1, 32768, 4] = .ok (.set .r0 (.lit 4), []) ∧
  decode [3, 32770] = .ok (.pop .r2, []) ∧
  decode [4, 32768, 32769, 7] = .ok (.eq .r0 (.reg .r1) (.lit 7), []) ∧
  decode [7, 32768, 6] = .ok (.jt (.reg .r0) (.lit 6), []) ∧
  decode [9, 32768, 32768, 32769] = .ok (.add .r0 (.reg .r0) (.reg .r1), []) ∧
  decode [16, 100, 32769] = .ok (.wmem (.lit 100) (.reg .r1), []) ∧
  decode [20, 32775] = .ok (.inp .r7, []) ∧
  decode [21] = .ok (.noop, [])

/-- R57 (numbering: decision D1): the opcode Cell alone tells the length; an opcode Cell above 21 has none. -/
def Obligations.OpcodeCellAloneTellsTheLength : Prop :=
  ∀ (op : Cell) (cs : List Cell),
    (21 < op.toNat → decode (op :: cs) = .error (.invalidOpcode op)) ∧
    ∀ (i : Instr) (rest : List Cell), decode (op :: cs) = .ok (i, rest) →
      [1, 3, 2, 2, 4, 4, 2, 3, 3, 4, 4, 4, 4, 4, 3, 3, 3, 2, 1, 2, 2, 1][op.toNat]? =
        some ((op :: cs).length - rest.length) ∧ rest.length ≤ (op :: cs).length

/-- R60, whole: a Cell below 32768 is the literal itself, 32768 to 32775 read the register, the rest fail. -/
def Obligations.ValueOperandResolution : Prop :=
  ∀ (w : Cell) (s : State),
    (w.toNat < 32768 → ∃ v, rawVal w s = .ok v ∧ v.toNat = w.toNat) ∧
    (32768 ≤ w.toNat → w.toNat ≤ 32775 → ∃ r : Reg, r.num = w.toNat - 32768 ∧ rawVal w s = .ok (s.reg r)) ∧
    (32775 < w.toNat → rawVal w s = .error (.invalidOperand w))

/-- R61, whole: 32768 to 32775 name the register, every other Cell fails. -/
def Obligations.DestinationOperandValidation : Prop :=
  ∀ w : Cell,
    (32768 ≤ w.toNat → w.toNat ≤ 32775 → ∃ r : Reg, decodeDest w = .ok r ∧ r.num = w.toNat - 32768) ∧
    (w.toNat < 32768 ∨ 32775 < w.toNat → decodeDest w = .error (.invalidOperand w))

/-! ### The instruction cycle -/

/-- R63, R154: a core that nothing stops runs the decoded instruction; the step adds the trace line before it and the watch
check after it, and adds nothing when the host neither watches nor traces (but for the wait of `in`, which leaves the loop
inside the step: log entry 7). -/
def Obligations.StepRunsTheDecodedInstruction : Prop :=
  ∀ (s : State) (i : Instr) (rest : List Cell), s.ready → s.fetch = .ok (i, rest) →
    step s = settleResult s i (exec i (s.traced i)) ∧ (s.quiet → i.waits s = false → step s = exec i s)

/-- R54, R62, R63: an instruction whose Cells stand at `pc`, all inside memory, is the one a quiet core runs (an `in` without input waits: InWaitsForInput). -/
def Obligations.InstructionAtPcRuns : Prop :=
  ∀ (i : Instr) (s : State), s.quiet → i.waits s = false → i.fitsAt s.pc.toNat = true →
    (∀ (k : Nat) (c : Cell), (encode i)[k]? = some c → Memory.read s.mem (s.pc.toNat + k) = c) →
    step s = exec i s

/-- R62, R132, R133, R140 (order: decision D7; record and mode: D8, D9): the decode phase reports the first failing check
of the order the spec fixes, with nothing else changed; when no check fails, the instruction of the opcode Cell runs. That a
decode fault emits no trace line, so that the host's state is as before, is the model's choice (log entry 6). -/
def Obligations.DecodePhaseReportsTheFirstFailingCheck : Prop :=
  ∀ s : State, s.ready →
    (∀ r, s.decodeFault = some r → StepNext s (TookFault r s)) ∧
    (s.decodeFault = none → ∃ i rest, s.fetch = .ok (i, rest) ∧
      i.op.number = (Memory.read s.mem s.pc.toNat).toNat ∧ step s = settleResult s i (exec i (s.traced i)))

/-- R130, R138: no behaviour of the machine is left without an effect. Every step answers a next state; that a fault is one
is log entry 3, and that an idle core and a waiting `in`, where the spec gives no enabled step, answer one is the model's
choice (log entry 2). -/
def Obligations.EveryStepAnswersANextState : Prop := ∀ s : State, StepNext s fun _ => True

/-- R137, R138 (all causes: decision D6; record and mode: D8, D9): a step that raises a fault changes nothing but the
record and the mode, and the record names the instruction at `pc`. -/
def Obligations.FaultLeavesTheMachineStateUntouched : Prop :=
  ∀ s t : State, s.ready → s.fault = none → step s = .next t → t.fault ≠ none →
    t.mode = .halted ∧ SameMachineState s t ∧ SameStreams s t ∧ ∃ c info, t.fault = some ⟨c, s.pc, info⟩

/-- R19: outside `Running`, with no host operation issued, nothing happens (that the idle step answers the same state is
log entry 2). -/
def Obligations.CoreThatIsNotRunningDoesNothing : Prop :=
  ∀ s : State, s.mode ≠ .running → s.host.script = [] → step s = .next s

/-- R181, R158: two cores that nothing stops, alike in Machine State, fault record and streams, are alike in them after the
step, whatever the host watches, traces or has issued. The premises on memory are the invariant's clause. -/
def Obligations.HostStateDoesNotInfluenceExecution : Prop :=
  ∀ s s' t t' : State, s.ready → s'.ready → s.mem.wf = true → s'.mem.wf = true → SameExceptHost s s' →
    step s = .next t → step s' = .next t' → SameExceptHost t t'

/-! ### Invariants -/

/-- R29 (the host's reset values: log entry 8): reset meets the invariant. -/
def Obligations.ResetMeetsTheInvariant : Prop := State.reset.Inv

/-- R16, R18, R23, R25 and the control state's rules: every step keeps the invariant. -/
def Obligations.StepKeepsTheInvariant : Prop := ∀ s t : State, s.Inv → step s = .next t → t.Inv

/-- R145, R150, R160 (form of arrivals: log entry 4): what arrives from outside keeps the invariant, and but for a host operation performed on arrival it
leaves the Machine State and the mode alone. -/
def Obligations.ArrivalKeepsTheInvariant : Prop :=
  ∀ (s : State) (a : Arrival), s.Inv →
    (s.arrive a).Inv ∧ ((∀ c, a ≠ .direct c) → SameMachineState s (s.arrive a) ∧ (s.arrive a).mode = s.mode)

/-! ### Data movement -/

/-- R80: `set`. -/
def Obligations.SetWritesTheValue : Prop :=
  ∀ (d : Reg) (b : Operand) (s : State), ExecNext (.set d b) s fun t =>
    t.reg d = b.val s ∧ t.pc = s.pc + 3 ∧ OnlyRegister d s t

/-- R81: `push`. -/
def Obligations.PushPutsTheValueOnTop : Prop :=
  ∀ (a : Operand) (s : State), ExecNext (.push a) s fun t =>
    (∃ c : Cell, t.stack = c :: s.stack ∧ c.toNat = (a.val s).toNat) ∧ t.pc = s.pc + 2 ∧
    SameRegs s t ∧ SameMem s t ∧ SameControl s t ∧ SameStreams s t

/-- R82: `pop` of a Word. -/
def Obligations.PopMovesTheTopToTheRegister : Prop :=
  ∀ (d : Reg) (s : State) (c : Cell) (rest : List Cell), s.stack = c :: rest → c.toNat ≤ 32767 →
    ExecNext (.pop d) s fun t =>
      (t.reg d).toNat = c.toNat ∧ t.stack = rest ∧ t.pc = s.pc + 2 ∧
      SameRegsBut d s t ∧ SameMem s t ∧ SameControl s t ∧ SameStreams s t

/-- R82, R95, R135 (state untouched: decision D6; `ValueOutOfRange`: D5; record and mode: D8, D9): when `pop` and `ret`
fault; a `ret` on an empty stack is no halt. -/
def Obligations.PopAndRetFaults : Prop :=
  ∀ (d : Reg) (s : State),
    (s.stack = [] → ExecNext (.pop d) s (TookFault ⟨.stackUnderflow, none⟩ s) ∧
      ExecNext .ret s (TookFault ⟨.stackUnderflow, none⟩ s)) ∧
    (∀ c rest, s.stack = c :: rest → 32768 ≤ c.toNat →
      ExecNext (.pop d) s (TookFault ⟨.valueOutOfRange, some c⟩ s))

/-! ### Comparison -/

/-- R85, R86, R26: `eq` and `gt` write 1 or 0 to the destination and touch nothing else. -/
def Obligations.ComparisonsWriteOneOrZero : Prop :=
  ∀ (d : Reg) (b c : Operand) (s : State),
    (ExecNext (.eq d b c) s fun t =>
      (t.reg d).toNat = (if b.val s = c.val s then 1 else 0) ∧ t.pc = s.pc + 4 ∧ OnlyRegister d s t) ∧
    (ExecNext (.gt d b c) s fun t =>
      (t.reg d).toNat = (if (c.val s).toNat < (b.val s).toNat then 1 else 0) ∧ t.pc = s.pc + 4 ∧ OnlyRegister d s t)

/-! ### Control transfer -/

/-- R90, R91, R92, R93 (register targets: decision D25): the three jumps. -/
def Obligations.JumpsSetPcAndNothingElse : Prop :=
  ∀ (a b : Operand) (s : State),
    (ExecNext (.jmp a) s fun t => t.pc.toNat = (a.val s).toNat ∧ OnlyPc s t) ∧
    (ExecNext (.jt a b) s fun t =>
      (if (a.val s).toNat ≠ 0 then t.pc.toNat = (b.val s).toNat else t.pc = s.pc + 3) ∧ OnlyPc s t) ∧
    (ExecNext (.jf a b) s fun t =>
      (if (a.val s).toNat = 0 then t.pc.toNat = (b.val s).toNat else t.pc = s.pc + 3) ∧ OnlyPc s t)

/-- R94 (register target: decision D25; the entry is a Cell: D4): `call`. -/
def Obligations.CallPushesTheReturnAddressAndJumps : Prop :=
  ∀ (a : Operand) (s : State), ExecNext (.call a) s fun t =>
    t.stack = (s.pc + 2) :: s.stack ∧ t.pc.toNat = (a.val s).toNat ∧
    SameRegs s t ∧ SameMem s t ∧ SameControl s t ∧ SameStreams s t

/-- R95 (the entry is a Cell: decision D4): `ret` takes whatever is on top. -/
def Obligations.RetPopsIntoPc : Prop :=
  ∀ (s : State) (c : Cell) (rest : List Cell), s.stack = c :: rest →
    ExecNext .ret s fun t =>
      t.pc = c ∧ t.stack = rest ∧ SameRegs s t ∧ SameMem s t ∧ SameControl s t ∧ SameStreams s t

/-- R94, R95 and the end-to-end property S3 of DOC0 §8: the `ret` after a `call` restores `pc` to the Cell after it, and
the stack to what it was. -/
def Obligations.RetAfterCallReturns : Prop :=
  ∀ (a : Operand) (s t u : State), exec (.call a) s = .next t → u.stack = t.stack →
    ExecNext .ret u fun v => v.pc = s.pc + 2 ∧ v.stack = s.stack

/-! ### Arithmetic and logic -/

/-- R100 to R106, R63: the six operations on resolved Words, with `pc` and frame; adding `32768 - k` subtracts `k`; a divisor
0 faults (R103, R136), which is read in the fault record (decision D8; a next state: log entry 3). -/
def Obligations.AluResults : Prop :=
  ∀ (d : Reg) (b c : Operand) (s : State),
    (ExecNext (.add d b c) s fun t =>
      (t.reg d).toNat = ((b.val s).toNat + (c.val s).toNat) % 32768 ∧ t.pc = s.pc + 4 ∧ OnlyRegister d s t) ∧
    (ExecNext (.mult d b c) s fun t =>
      (t.reg d).toNat = ((b.val s).toNat * (c.val s).toNat) % 32768 ∧ t.pc = s.pc + 4 ∧ OnlyRegister d s t) ∧
    ((c.val s).toNat ≠ 0 → ExecNext (.mod d b c) s fun t =>
      (t.reg d).toNat = (b.val s).toNat % (c.val s).toNat ∧ t.pc = s.pc + 4 ∧ OnlyRegister d s t) ∧
    ((c.val s).toNat = 0 → ExecNext (.mod d b c) s fun t => ∃ f, t.fault = some f ∧ f.cause = .divisionByZero) ∧
    (ExecNext (.and d b c) s fun t =>
      (t.reg d).toNat = (b.val s).toNat &&& (c.val s).toNat ∧ t.pc = s.pc + 4 ∧ OnlyRegister d s t) ∧
    (ExecNext (.or d b c) s fun t =>
      (t.reg d).toNat = (b.val s).toNat ||| (c.val s).toNat ∧ t.pc = s.pc + 4 ∧ OnlyRegister d s t) ∧
    (ExecNext (.not d b) s fun t =>
      (t.reg d).toNat = 32767 - (b.val s).toNat ∧ t.pc = s.pc + 3 ∧ OnlyRegister d s t) ∧
    (∀ k : Nat, 0 < k → k ≤ 32768 → (c.val s).toNat = 32768 - k → ExecNext (.add d b c) s fun t =>
      ((t.reg d).toNat : Int) = (((b.val s).toNat : Int) - k) % 32768)

/-- R103, R136 (state untouched: decision D6; record and mode: D8, D9): `mod` by 0, from a literal or a register. -/
def Obligations.ModByZeroFaults : Prop :=
  ∀ (d : Reg) (b c : Operand) (s : State), (c.val s).toNat = 0 →
    ExecNext (.mod d b c) s (TookFault ⟨.divisionByZero, none⟩ s)

/-! ### Memory access -/

/-- R32, R33, whole: the bound check, that a read gives the Cell last written, and that a write changes one Cell. Where an
unlisted address reads 0 is the canonical form's; the premise is the invariant's clause on it. -/
def Obligations.MemoryAccessPrimitives : Prop :=
  ∀ (m : Memory) (addr : Nat) (v : Cell), m.wf = true →
    (32768 ≤ addr → ∃ r, memRead m addr = .error r ∧ memWrite m addr v = .error r ∧ r.cause = .outOfBounds ∧
      (addr < 65536 → ∃ c : Cell, r.info = some c ∧ c.toNat = addr)) ∧
    (addr < 32768 → memRead m addr = .ok (Memory.read m addr) ∧
      ∃ m', memWrite m addr v = .ok m' ∧ m'.wf = true ∧ memRead m' addr = .ok v ∧
        ∀ b, b ≠ addr → memRead m' b = memRead m b)

/-- R115: `rmem` of a Word. -/
def Obligations.RmemReadsTheCell : Prop :=
  ∀ (d : Reg) (b : Operand) (s : State), (Memory.read s.mem (b.val s).toNat).toNat ≤ 32767 →
    ExecNext (.rmem d b) s fun t =>
      (t.reg d).toNat = (Memory.read s.mem (b.val s).toNat).toNat ∧ t.pc = s.pc + 3 ∧ OnlyRegister d s t

/-- R115, R139 (`ValueOutOfRange`: decision D5; record and mode: D8, D9): `rmem` of a Cell that is no Word. -/
def Obligations.RmemOfNonWordFaults : Prop :=
  ∀ (d : Reg) (b : Operand) (s : State), 32768 ≤ (Memory.read s.mem (b.val s).toNat).toNat →
    ExecNext (.rmem d b) s (TookFault ⟨.valueOutOfRange, some (Memory.read s.mem (b.val s).toNat)⟩ s)

/-- R116: `wmem` writes the one Cell at the resolved address and nothing else. -/
def Obligations.WmemWritesOneCell : Prop :=
  ∀ (a b : Operand) (s : State), s.mem.wf = true →
    ExecNext (.wmem a b) s fun t =>
      (Memory.read t.mem (a.val s).toNat).toNat = (b.val s).toNat ∧
      (∀ x, x ≠ (a.val s).toNat → Memory.read t.mem x = Memory.read s.mem x) ∧
      t.pc = s.pc + 3 ∧ SameRegs s t ∧ t.stack = s.stack ∧ SameControl s t ∧ SameStreams s t

/-- R45 (derived there): the Cell a `wmem` wrote at its own `next` is the opcode Cell of the next fetch. -/
def Obligations.WmemAtItsOwnNextIsFetched : Prop :=
  ∀ (a b : Operand) (s t : State), s.mem.wf = true → exec (.wmem a b) s = .next t → t.pc.toNat = (a.val s).toNat →
    ∃ c rest, fetchCells t.mem t.pc.toNat 4 = c :: rest ∧ c.toNat = (b.val s).toNat

/-! ### System and input/output -/

/-- R120 (`pc` after `halt`: decision D10): a clean halt. -/
def Obligations.HaltStopsCleanly : Prop :=
  ∀ s : State, ExecNext .halt s fun t =>
    t.mode = .halted ∧ t.fault = s.fault ∧ t.pc = s.pc + 1 ∧
    SameRegs s t ∧ t.stack = s.stack ∧ SameMem s t ∧ SameStreams s t ∧ t.host = s.host

/-- R121 (whole Word, no output fault: decision D12): `out`. -/
def Obligations.OutAppendsTheWord : Prop :=
  ∀ (a : Operand) (s : State), ExecNext (.out a) s fun t =>
    t.output = s.output ++ [a.val s] ∧ t.input = s.input ∧ t.pc = s.pc + 2 ∧
    SameRegs s t ∧ t.stack = s.stack ∧ SameMem s t ∧ SameControl s t

/-- R122 (elements are Words: decision D13): `in` with input. -/
def Obligations.InTakesTheNextWord : Prop :=
  ∀ (d : Reg) (s : State) (v : Word) (rest : List Word), s.input = v :: rest →
    ExecNext (.inp d) s fun t =>
      t.reg d = v ∧ t.input = rest ∧ t.output = s.output ∧ t.pc = s.pc + 2 ∧
      SameRegsBut d s t ∧ t.stack = s.stack ∧ SameMem s t ∧ SameControl s t

/-- R123, R160 (decision D14): a decoded `in` on an empty input stream waits in `Running`, the core as before; of the host's
state only the loop's position (log entry 7) and, with trace on, the one line of the `in` (log entry 6) are new; neither a
breakpoint nor the cancellation flag interrupts the wait, whose steps answer the same state (log entry 2); and once a Word
arrives the `in` completes. -/
def Obligations.InWaitsForInput : Prop :=
  ∀ (d : Reg) (s : State) (rest : List Cell) (v : Word), s.ready → s.fetch = .ok (.inp d, rest) → s.input = [] →
    StepNext s fun t => SameExceptHost s t ∧ t.mode = .running ∧
      t.host = { s.host with
        inStep := true
        observer := s.host.observer ++ (if s.host.trace && !s.host.inStep then [⟨s.pc, .inp d, []⟩] else []) } ∧
      ∀ b : Bool, (t.arrive (.cancel b)).ready ∧
      step (t.arrive (.cancel b)) = .next (t.arrive (.cancel b)) ∧
      StepNext ((t.arrive (.cancel b)).arrive (.word v)) fun u => u.reg d = v ∧ u.pc = s.pc + 2 ∧ u.input = []

/-- R124: `noop`. -/
def Obligations.NoopAdvances : Prop :=
  ∀ s : State, ExecNext .noop s fun t => t.pc = s.pc + 1 ∧ OnlyPc s t

/-! ### Rules over all instructions -/

/-- R14: no instruction writes a register other than its destination, and only the twelve named have one. -/
def Obligations.OnlyTheDestinationRegisterIsWritten : Prop :=
  ∀ (i : Instr) (s t : State), exec i s = .next t →
    (∀ r, i.dest ≠ some r → t.reg r = s.reg r) ∧
    (i.op ∉ [Op.set, .pop, .eq, .gt, .add, .mult, .mod, .and, .or, .not, .rmem, .inp] → SameRegs s t)

/-- R18: only `push`, `pop`, `call` and `ret` reach the stack. -/
def Obligations.OnlyFourInstructionsReachTheStack : Prop :=
  ∀ (i : Instr) (s t : State), exec i s = .next t → i.op ∉ [Op.push, .pop, .call, .ret] → t.stack = s.stack

/-- R37: no instruction but `wmem` writes memory. -/
def Obligations.OnlyWmemWritesMemory : Prop :=
  ∀ (i : Instr) (s t : State), exec i s = .next t → i.op ≠ .wmem → SameMem s t

/-- R21, R22: only `out` appends to the output stream and only `in` takes from the input stream. -/
def Obligations.OnlyOutAndInTouchTheStreams : Prop :=
  ∀ (i : Instr) (s t : State), exec i s = .next t →
    (i.op ≠ .out → t.output = s.output) ∧ (i.op ≠ .inp → t.input = s.input)

/-- R19, R20, R27: no instruction touches the host's state; one that leaves the mode or the fault record changed is `halt`
or has raised a fault. -/
def Obligations.OnlyHaltAndFaultsChangeTheMode : Prop :=
  ∀ (i : Instr) (s t : State), exec i s = .next t →
    t.host = s.host ∧ ((t.mode = s.mode ∧ t.fault = s.fault) ∨ (i = .halt ∧ t.fault = s.fault) ∨ ∃ r, TookFault r s t)

/-- R17 (`halt`: decision D10): what every instruction does to `pc`. -/
def Obligations.HowEachInstructionChangesPc : Prop :=
  ∀ (i : Instr) (s t : State), s.fault = none → exec i s = .next t →
    (t.fault ≠ none ∨ i.waits s = true → t.pc = s.pc) ∧
    (t.fault = none → i.waits s = false →
      match i with
      | .jmp a => t.pc.toNat = (a.val s).toNat
      | .jt a b => if a.val s ≠ 0 then t.pc.toNat = (b.val s).toNat else t.pc = s.pc + 3
      | .jf a b => if a.val s = 0 then t.pc.toNat = (b.val s).toNat else t.pc = s.pc + 3
      | .call a => t.pc.toNat = (a.val s).toNat
      | .ret => s.stack = t.pc :: t.stack
      | _ => t.pc = s.pc + BitVec.ofNat 16 i.length)

/-! ### Reset, loader, host -/

/-- R29, R171 (fault record: decision D8; output stream: D12): what a valid image leaves, whatever was there before. That the
input stream, which R29 leaves to the collaborator, is kept is the model's choice (log entry 16). -/
def Obligations.LoadOfAnImageResets : Prop :=
  ∀ (b : List Byte) (s : State), b.length % 2 = 0 → b.length ≤ 65536 →
    ∃ t, loadImage b s = .ok t ∧ (∀ r, t.reg r = 0) ∧ t.pc = 0 ∧ t.stack = [] ∧ t.mode = .stopped ∧ t.fault = none ∧
      t.output = [] ∧ t.input = s.input ∧ (∀ a, b.length ≤ 2 * a → Memory.read t.mem a = 0)

/-- R172: image word `i` is bytes `2i` (low) and `2i + 1` (high), stored verbatim at address `i`; the rest is zero. -/
def Obligations.ImageWordsGoToLowAddresses : Prop :=
  ∀ (b : List Byte) (s t : State), loadImage b s = .ok t →
    (∀ (i : Nat) (lo hi : Byte), b[2 * i]? = some lo → b[2 * i + 1]? = some hi →
      (Memory.read t.mem i).toNat = lo.toNat + 256 * hi.toNat) ∧
    (∀ a, b.length ≤ 2 * a → Memory.read t.mem a = 0)

/-- R29, R173 (empty image: decision D17): the model's reset state is what the load of an image of no bytes leaves. -/
def Obligations.ResetIsTheEmptyImage : Prop :=
  ∃ t, loadImage [] State.reset = .ok t ∧ SameMachineState State.reset t ∧ (∀ r, State.reset.reg r = 0) ∧
    State.reset.pc = 0 ∧ State.reset.stack = [] ∧ (∀ a, Memory.read State.reset.mem a = 0) ∧
    State.reset.mode = .stopped ∧ State.reset.fault = none ∧ State.reset.output = []

/-- R174 (names and that nothing changes: decision D16): the two malformed images. -/
def Obligations.MalformedImagesAreRefused : Prop :=
  ∀ (b : List Byte) (s : State),
    (b.length % 2 = 1 → perform (.loadImage b) s = (s, .refused .oddLength)) ∧
    (b.length % 2 = 0 → 65536 < b.length → perform (.loadImage b) s = (s, .refused .tooLarge))

/-- R159, by any codec: `save` then `load`, in whatever state the `load` finds the machine, reproduces memory, registers,
stack and `pc`; and nothing else is in a Snapshot. The premise is the invariant, which every reachable state meets. -/
def Obligations.SaveThenLoadReproduces : Prop :=
  ∀ (codec : SnapshotCodec Snapshot.valid) (s s' : State), s.Inv → s.mode = .stopped →
    ∃ b, saveBytes codec s = .ok b ∧ ∃ t, loadBytes codec b s' = .ok t ∧
      t.mem = s.mem ∧ t.regs = s.regs ∧ t.stack = s.stack ∧ t.pc = s.pc ∧
      ∀ u : State, u.mode = .stopped → u.mem = s.mem → u.regs = s.regs → u.stack = s.stack → u.pc = s.pc →
        saveBytes codec u = .ok b

/-- R29 (its last paragraph), R151, R176 (decision D19): a Snapshot outside the state invariant is refused with no change, any
other is loaded and leaves the core `Stopped` with no fault (D8) and an empty output stream (D12). -/
def Obligations.SnapshotsAreCheckedByTheInvariant : Prop :=
  ∀ (n : Snapshot) (s : State),
    (n.memory.length ≠ 32768 ∨ n.registers.length ≠ 8 ∨ (∃ c ∈ n.registers, 32767 < c.toNat) ∨
      (∃ c ∈ n.stack, 32768 < c.toNat) ∨ 32768 < n.pc.toNat →
        perform (.loadSnapshot n) s = (s, .refused .badSnapshot)) ∧
    (n.memory.length = 32768 → n.registers.length = 8 → (∀ c ∈ n.registers, c.toNat ≤ 32767) →
      (∀ c ∈ n.stack, c.toNat ≤ 32768) → n.pc.toNat ≤ 32768 →
        ∃ t, perform (.loadSnapshot n) s = (t, .ok) ∧ t.pc = n.pc ∧ t.stack = n.stack ∧
          (∀ r : Reg, some (t.reg r).toNat = (n.registers[r.num]?).map BitVec.toNat) ∧
          (∀ a, a < 32768 → some (Memory.read t.mem a) = n.memory[a]?) ∧ t.mode = .stopped ∧ t.fault = none ∧
          t.output = [])

/-- R141 (record and mode: decisions D8, D9): `continue()` after a fault clears the record and re-executes the instruction at
the unchanged `pc`; with nothing corrected the same fault is raised again. -/
def Obligations.ContinueAfterAFaultReExecutes : Prop :=
  ∀ (s t : State) (f : FaultRecord), s.ready → s.fault = none → step s = .next t → t.fault = some f →
    t.host.hasBreakpoint t.pc = false → t.host.cancel = false →
    ∃ u, perform .resume t = (u, .ok) ∧ u.fault = none ∧ u.mode = .running ∧ SameMachineState t u ∧ SameStreams t u ∧
      StepNext u fun v => v.fault = some f

/-- R120, R154, R179 (a): nothing but a `load` leaves a clean halt, neither a step nor a host operation performed on arrival
(the two ways of an operation: log entry 4). -/
def Obligations.OnlyALoadLeavesACleanHalt : Prop :=
  ∀ s : State, s.cleanHalt →
    ((∀ b rest, s.host.script ≠ .loadImage b :: rest) → (∀ n rest, s.host.script ≠ .loadSnapshot n :: rest) →
      StepNext s fun t => t.cleanHalt ∧ SameMachineState s t ∧ SameStreams s t) ∧
    (∀ c : Command, (∀ b, c ≠ .loadImage b) → (∀ n, c ≠ .loadSnapshot n) →
      (s.arrive (.direct c)).cleanHalt ∧ SameMachineState s (s.arrive (.direct c)) ∧
        SameStreams s (s.arrive (.direct c)))

/-- R153, R150 (ranges: decision D18): `write_register` and `write_memory` where they are allowed and in range; and memory
inspection, in `Stopped` and in `Halted` after a fault or a clean `halt`, which answers the Cell or `OutOfBounds` and changes
nothing. -/
def Obligations.HostWritesChangeOneRegisterOrCell : Prop :=
  ∀ (s : State) (r : Reg) (v a w : Nat),
    (s.mem.wf = true → s.mode = .stopped ∨ (s.mode = .halted ∧ s.fault ≠ none) → v < 32768 → a < 32768 → w < 65536 →
      (∃ t, perform (.writeRegister r.num v) s = (t, .ok) ∧ (t.reg r).toNat = v ∧ OnlyRegister r s t ∧ t.pc = s.pc) ∧
      (∃ t, perform (.writeMemory a w) s = (t, .ok) ∧ (Memory.read t.mem a).toNat = w ∧
        (∀ x, x ≠ a → Memory.read t.mem x = Memory.read s.mem x) ∧
        SameRegs s t ∧ t.stack = s.stack ∧ t.pc = s.pc ∧ SameControl s t ∧ SameStreams s t)) ∧
    (s.mode = .stopped ∨ s.mode = .halted →
      (a < 32768 → perform (.inspectMemory a) s = (s, .cell (Memory.read s.mem a))) ∧
      (32768 ≤ a → perform (.inspectMemory a) s = (s, .refused (.outOfBounds a))))

/-- R150, R153 (ranges: decision D18): host writes out of range, or in a mode that does not allow them, change nothing. -/
def Obligations.OutOfRangeHostWritesChangeNothing : Prop :=
  ∀ (s : State) (n v : Nat), (s.mode = .running ∨ s.cleanHalt ∨ 7 < n ∨ 32767 < v →
      ∃ e, perform (.writeRegister n v) s = (s, .refused e)) ∧
    (s.mode = .running ∨ s.cleanHalt ∨ 32767 < n ∨ 65535 < v → ∃ e, perform (.writeMemory n v) s = (s, .refused e))

/-- R42, R150 (that it arrives between two steps: log entry 4): a host operation performed while the core is `Running` changes
nothing of the core unless it is a `load`, and the `load` of a valid image or Snapshot is performed there too. The field
`replies` is the model's own (log entry 7), and that a `load` keeps the earlier answers is its choice (log entry 16). -/
def Obligations.HostOperationsWhileRunning : Prop :=
  ∀ (s : State) (c : Command), s.mode = .running → s.host.inStep = false →
    ((∀ b, c ≠ .loadImage b) → (∀ n, c ≠ .loadSnapshot n) →
      SameExceptHost s (s.arrive (.direct c)) ∧ (s.arrive (.direct c)).mode = .running) ∧
    (∀ b, c = .loadImage b → b.length % 2 = 0 → b.length ≤ 65536 →
      (s.arrive (.direct c)).mode = .stopped ∧ (s.arrive (.direct c)).pc = 0 ∧
        (s.arrive (.direct c)).host.replies = s.host.replies ++ [.ok]) ∧
    (∀ n, c = .loadSnapshot n → n.valid = true →
      (s.arrive (.direct c)).mode = .stopped ∧ (s.arrive (.direct c)).pc = n.pc ∧
        (s.arrive (.direct c)).stack = n.stack ∧ (s.arrive (.direct c)).host.replies = s.host.replies ++ [.ok])

/-- R150, R154, R155, R178 (not checked again on the first instruction: decision D22): a breakpoint stops the core before the
instruction at its address, with nothing executed; `continue()`, accepted from every `Stopped` state, goes past it; and a
completed instruction that leaves the core `Running` leaves the breakpoint at the new `pc` due, be it the same address or
another (the wait of `in`, recorded in log entry 7, is no completed instruction). -/
def Obligations.BreakpointStopsOncePerVisit : Prop :=
  (∀ s : State, s.mode = .running → s.cancelDue = false → s.breakpointDue = true →
    StepNext s fun t =>
      t.mode = .stopped ∧ t.host.report = some (.breakpoint s.pc) ∧ SameMachineState s t ∧ SameStreams s t ∧
      perform .resume t = (t.resume, .ok) ∧ t.resume.ready ∧
      ∀ v, step t.resume = .next v → v.mode = .running →
        v.pc ≠ s.pc ∨ v.breakpointDue = true ∨ v.host.inStep = true) ∧
  (∀ s : State, s.mode = .stopped →
    perform .resume s = (s.resume, .ok) ∧ s.resume.mode = .running ∧ SameMachineState s s.resume ∧ SameStreams s s.resume) ∧
  (∀ s t : State, s.ready → step s = .next t → t.mode = .running → t.host.inStep = false →
    t.breakpointDue = t.host.hasBreakpoint t.pc)

/-- R156, whole: the watch check after an instruction stops the core exactly when a watched register's value changed,
reports the register with its old and new value, and the instruction has completed. -/
def Obligations.WatchStopsExactlyOnAChange : Prop :=
  ∀ s t : State, s.Inv → s.ready → step s = .next t →
    (t.mode = .stopped ↔ ∃ w ∈ s.host.watches, t.reg w.reg ≠ s.reg w.reg) ∧
    (t.mode = .stopped → ∃ i rest u, s.fetch = .ok (i, rest) ∧ exec i (s.traced i) = .next u ∧ SameMachineState u t ∧
      ∃ w ∈ s.host.watches, t.reg w.reg ≠ s.reg w.reg ∧
        t.host.report = some (.watch w.reg (s.reg w.reg) (t.reg w.reg)))

/-- R161 (derived there): after a watch stop, the breakpoint at the successor fires on the next `continue()`. -/
def Obligations.BreakpointFiresAfterAWatchStop : Prop :=
  ∀ s t : State, s.ready → step s = .next t → t.mode = .stopped → t.host.hasBreakpoint t.pc = true →
    perform .resume t = (t.resume, .ok) ∧ t.resume.breakpointDue = true

/-- R157: setting a trigger adds it enabled, a second time changes nothing, and the core is not touched. The premise is the
invariant's clause that every trigger set is enabled. -/
def Obligations.SettingATriggerIsIdempotent : Prop :=
  ∀ (s : State) (a : Cell) (r : Reg), s.Inv →
    (setBreakpoint a s).host.hasBreakpoint a = true ∧ setBreakpoint a (setBreakpoint a s) = setBreakpoint a s ∧
    (∃ w ∈ (setWatch r s).host.watches, w.reg = r ∧ w.enabled = true) ∧ setWatch r (setWatch r s) = setWatch r s ∧
    SameMachineState s (setBreakpoint a s) ∧ SameMachineState s (setWatch r s)

/-- R158 (the form of a line: log entry 6): with trace on, a decoded instruction emits one line with its address, itself
and its resolved value operands, and an `in` that was already waiting emits none; with trace off nothing is emitted; and
`toggle_trace()`, in any mode (R150), turns the flag over and changes nothing else. -/
def Obligations.TraceEmitsOneLinePerInstruction : Prop :=
  (∀ (s t : State) (i : Instr) (rest : List Cell), s.ready → s.host.trace = true → s.fetch = .ok (i, rest) →
    step s = .next t →
    t.host.observer = s.host.observer ++
      (if s.host.inStep then [] else [⟨s.pc, i, i.valueOperands.map fun o => o.val s⟩])) ∧
  (∀ s t : State, s.ready → s.host.trace = false → step s = .next t → t.host.observer = s.host.observer) ∧
  (∀ s : State, perform .toggleTrace s = ({ s with host := { s.host with trace := !s.host.trace } }, .ok))

/-- R160: the cancellation flag, where the host has one, stops the core between instructions with the Machine State as it
is (inside the wait of `in` it does not: InWaitsForInput); whether it has one is the open parameter `HOST_CANCEL`, so that clause is an implication inside the conclusion. -/
def Obligations.CancellationStopsBetweenInstructions : Prop :=
  ∀ s : State, s.mode = .running → s.host.inStep = false → s.host.cancel = true →
    StepNext s fun t => Config.hostCancel = true →
      t.mode = .stopped ∧ SameMachineState s t ∧ SameStreams s t ∧ t.fault = s.fault
end

