-- ==== Sys2Proof/Laws/Decode.lean ====
section
/-! SUPPORT. The small laws of registers, operands and formats as Cells, one per function of the decoder. -/

namespace Sys2Proof

theorem reg_num_lt (r : Reg) : r.num < 8 := by cases r <;> decide

@[simp] theorem reg_ofNum_num (r : Reg) : Reg.ofNum r.num = some r := by cases r <;> rfl

/-- A register number names a register exactly when it is below 8. -/
theorem reg_ofNum_some {n : Nat} {r : Reg} (h : Reg.ofNum n = some r) : r.num = n := by
  unfold Reg.ofNum at h; split at h <;> cases h <;> rfl

theorem reg_ofNum_none {n : Nat} : Reg.ofNum n = none ↔ 8 ≤ n := by
  constructor
  · intro h
    have all : ∀ k : Fin 8, Reg.ofNum k ≠ none := by decide
    by_cases hn : n < 8
    · exact absurd h (all ⟨n, hn⟩)
    · omega
  · intro h; unfold Reg.ofNum; split <;> first | omega | rfl

@[simp] theorem op_ofNumber_number (o : Op) : Op.ofNumber o.number = some o := by cases o <;> rfl

theorem op_ofNumber_some {n : Nat} {o : Op} (h : Op.ofNumber n = some o) : o.number = n := by
  unfold Op.ofNumber at h; split at h <;> cases h <;> rfl

/-- An opcode number names no mnemonic exactly when it is above 21 (R58). -/
theorem op_ofNumber_none {n : Nat} : Op.ofNumber n = none ↔ 21 < n := by
  constructor
  · intro h
    have all : ∀ k : Fin 22, Op.ofNumber k ≠ none := by decide
    by_cases hn : n < 22
    · exact absurd h (all ⟨n, hn⟩)
    · omega
  · intro h; unfold Op.ofNumber; split <;> first | omega | rfl

theorem op_number_le (o : Op) : o.number ≤ 21 := by cases o <;> decide

@[simp] theorem zext16_toNat (w : Word) : (zext16 w).toNat = w.toNat := by
  simp only [zext16, BitVec.toNat_setWidth]; have := w.isLt; omega

theorem low15_toNat {c : Cell} (h : c.toNat < 32768) : (low15 c).toNat = c.toNat := by
  simp only [low15, BitVec.toNat_setWidth]; omega

@[simp] theorem low15_zext16 (w : Word) : low15 (zext16 w) = w :=
  BitVec.eq_of_toNat_eq (by rw [low15_toNat] <;> rw [zext16_toNat]; exact w.isLt)

theorem zext16_low15 {c : Cell} (h : c.toNat < 32768) : zext16 (low15 c) = c :=
  BitVec.eq_of_toNat_eq (by rw [zext16_toNat, low15_toNat h])

theorem encodeReg_toNat (r : Reg) : (encodeReg r).toNat = 32768 + r.num := by cases r <;> rfl

/-- A register reference is its register's Cell. -/
theorem encodeReg_ofNum {w : Cell} {r : Reg} (hw : 32768 ≤ w.toNat) (h : Reg.ofNum (w.toNat - 32768) = some r) :
    encodeReg r = w :=
  BitVec.eq_of_toNat_eq (by rw [encodeReg_toNat, reg_ofNum_some h]; omega)

@[simp] theorem decodeDest_encodeReg (r : Reg) : decodeDest (encodeReg r) = .ok r := by cases r <;> rfl

@[simp] theorem decodeValue_encodeOperand (o : Operand) : decodeValue (encodeOperand o) = .ok o := by
  cases o with
  | lit v => simp [decodeValue, encodeOperand, v.isLt]
  | reg r => cases r <;> rfl

/-- Everything `decodeDest` can answer (R61). -/
theorem decodeDest_cases (w : Cell) :
    (destCellOk w = true ∧ ∃ r, decodeDest w = .ok r ∧ encodeReg r = w) ∨
    (destCellOk w = false ∧ decodeDest w = .error (.invalidOperand w)) := by
  unfold decodeDest
  by_cases hw : w.toNat < 32768
  · right
    refine ⟨?_, if_pos hw⟩
    simp only [destCellOk, Config.regBase, Config.regTop, Bool.and_eq_false_iff, decide_eq_false_iff_not]; omega
  · cases h : Reg.ofNum (w.toNat - 32768) with
    | none => right; have := reg_ofNum_none.1 h; simp only [destCellOk, Config.regBase, hw, if_false]; simp; omega
    | some r =>
      left
      have := reg_num_lt r
      have h' := reg_ofNum_some h
      refine ⟨by simp [destCellOk]; omega, r, by simp only [Config.regBase, hw, if_false], encodeReg_ofNum (by omega) h⟩

/-- Everything `decodeValue` can answer (R60). -/
theorem decodeValue_cases (w : Cell) :
    (valueCellOk w = true ∧ ∃ o, decodeValue w = .ok o ∧ encodeOperand o = w) ∨
    (valueCellOk w = false ∧ decodeValue w = .error (.invalidOperand w)) := by
  unfold decodeValue
  by_cases hw : w.toNat < 32768
  · left
    exact ⟨by simp [valueCellOk]; omega, .lit (low15 w), by simp [hw], zext16_low15 hw⟩
  · cases h : Reg.ofNum (w.toNat - 32768) with
    | none => right; have := reg_ofNum_none.1 h; simp only [valueCellOk, Config.regBase, hw, if_false]; simp; omega
    | some r =>
      left
      have := reg_num_lt r
      have h' := reg_ofNum_some h
      exact ⟨by simp [valueCellOk]; omega, .reg r, by simp only [Config.regBase, hw, if_false], encodeReg_ofNum (by omega) h⟩

@[simp] theorem takeDest_encode (k : Nat) (r : Reg) (rest : List Cell) :
    takeDest k (encodeReg r :: rest) = .ok (r, rest) := by simp [takeDest]

@[simp] theorem takeValue_encode (k : Nat) (o : Operand) (rest : List Cell) :
    takeValue k (encodeOperand o :: rest) = .ok (o, rest) := by simp [takeValue]

/-- A destination is taken from its own Cell only. -/
theorem takeDest_ok {k : Nat} {cs rest : List Cell} {r : Reg} (h : takeDest k cs = .ok (r, rest)) :
    cs = encodeReg r :: rest := by
  cases cs with
  | nil => cases h
  | cons w ws =>
    rcases decodeDest_cases w with ⟨-, r', h', hw⟩ | ⟨-, h'⟩ <;> simp only [takeDest, h'] at h <;> cases h
    rw [hw]

/-- A value operand is taken from its own Cell only. -/
theorem takeValue_ok {k : Nat} {cs rest : List Cell} {o : Operand} (h : takeValue k cs = .ok (o, rest)) :
    cs = encodeOperand o :: rest := by
  cases cs with
  | nil => cases h
  | cons w ws =>
    rcases decodeValue_cases w with ⟨-, o', h', hw⟩ | ⟨-, h'⟩ <;> simp only [takeValue, h'] at h <;> cases h
    rw [hw]

theorem formatV_ok {mk : Operand → Instr} {cs rest : List Cell} {i : Instr} (h : formatV mk cs = .ok (i, rest)) :
    ∃ a, i = mk a ∧ cs = encodeOperand a :: rest := by
  unfold formatV at h
  split at h
  · rename_i a r h1; cases h; exact ⟨a, rfl, takeValue_ok h1⟩
  · cases h

theorem formatD_ok {mk : Reg → Instr} {cs rest : List Cell} {i : Instr} (h : formatD mk cs = .ok (i, rest)) :
    ∃ a, i = mk a ∧ cs = encodeReg a :: rest := by
  unfold formatD at h
  split at h
  · rename_i a r h1; cases h; exact ⟨a, rfl, takeDest_ok h1⟩
  · cases h

theorem formatDV_ok {mk : Reg → Operand → Instr} {cs rest : List Cell} {i : Instr}
    (h : formatDV mk cs = .ok (i, rest)) : ∃ a b, i = mk a b ∧ cs = encodeReg a :: encodeOperand b :: rest := by
  unfold formatDV at h
  split at h
  · cases h
  · rename_i a ws h1
    split at h
    · cases h
    · rename_i b r h2; cases h; exact ⟨a, b, rfl, by rw [takeDest_ok h1, takeValue_ok h2]⟩

theorem formatVV_ok {mk : Operand → Operand → Instr} {cs rest : List Cell} {i : Instr}
    (h : formatVV mk cs = .ok (i, rest)) : ∃ a b, i = mk a b ∧ cs = encodeOperand a :: encodeOperand b :: rest := by
  unfold formatVV at h
  split at h
  · cases h
  · rename_i a ws h1
    split at h
    · cases h
    · rename_i b r h2; cases h; exact ⟨a, b, rfl, by rw [takeValue_ok h1, takeValue_ok h2]⟩

theorem formatDVV_ok {mk : Reg → Operand → Operand → Instr} {cs rest : List Cell} {i : Instr}
    (h : formatDVV mk cs = .ok (i, rest)) :
    ∃ a b c, i = mk a b c ∧ cs = encodeReg a :: encodeOperand b :: encodeOperand c :: rest := by
  unfold formatDVV at h
  split at h
  · cases h
  · rename_i a ws h1
    split at h
    · cases h
    · rename_i b us h2
      split at h
      · cases h
      · rename_i c r h3
        cases h; exact ⟨a, b, c, rfl, by rw [takeDest_ok h1, takeValue_ok h2, takeValue_ok h3]⟩

end Sys2Proof
end

