-- ==== Sys2Proof/Laws/Memory.lean ====
section
/-! SUPPORT. The laws of memory: read after write, the canonical form, and that it makes equal memories equal data. -/

namespace Sys2Proof.Machine

theorem wfFrom_mono {lo lo' : Nat} (h : lo' ≤ lo) : ∀ {m : Memory}, Memory.wfFrom lo m = true → Memory.wfFrom lo' m = true
  | [], _ => rfl
  | (k, c) :: m, hm => by
    simp only [Memory.wfFrom, Bool.and_eq_true, decide_eq_true_eq] at hm ⊢
    exact ⟨⟨⟨by omega, hm.1.1.2⟩, hm.1.2⟩, hm.2⟩

/-- Below the first address of the canonical form every Cell reads 0. -/
theorem read_below {a : Nat} : ∀ {lo : Nat} {m : Memory}, Memory.wfFrom lo m = true → a < lo → Memory.read m a = 0
  | _, [], _, _ => rfl
  | lo, (k, c) :: m, hm, ha => by
    simp only [Memory.wfFrom, Bool.and_eq_true, decide_eq_true_eq] at hm
    have hk : ¬ k = a := by omega
    rw [Memory.read, if_neg hk]
    exact read_below hm.2 (by omega)

/-- No Cell at or above 32768 is listed. -/
theorem read_above {a : Nat} (ha : Config.memCells ≤ a) :
    ∀ {lo : Nat} {m : Memory}, Memory.wfFrom lo m = true → Memory.read m a = 0
  | _, [], _ => rfl
  | lo, (k, c) :: m, hm => by
    simp only [Memory.wfFrom, Bool.and_eq_true, decide_eq_true_eq] at hm
    have hk : ¬ k = a := by omega
    rw [Memory.read, if_neg hk]
    exact read_above ha hm.2

/-- A read of the address just written gives the Cell written, a read of any other address what it gave before (R33). -/
theorem read_write {lo : Nat} (a b : Nat) (v : Cell) :
    ∀ {m : Memory}, Memory.wfFrom lo m = true →
      Memory.read (Memory.write m a v) b = if b = a then v else Memory.read m b
  | [], _ => by
    rw [Memory.write]
    by_cases hb : b = a
    · subst hb; split <;> simp_all [Memory.read]
    · split <;> simp_all [Memory.read, Ne.symm hb]
  | (k, c) :: m, hm => by
    have hm' := hm
    simp only [Memory.wfFrom, Bool.and_eq_true, decide_eq_true_eq] at hm'
    have ih := read_write a b v hm'.2
    have hz : a ≤ k → Memory.read m a = 0 := fun h => read_below hm'.2 (by omega)
    rw [Memory.write]
    split
    · rename_i h
      split
      · rename_i hv
        by_cases hb : b = a
        · subst hb; simp [Memory.read, hv, hz (by omega)]; omega
        · simp [hb]
      · by_cases hb : b = a
        · simp [Memory.read, hb]
        · simp [Memory.read, hb, Ne.symm hb]
    · split
      · rename_i h
        subst h
        split
        · rename_i hv
          by_cases hb : b = a
          · subst hb; simp [hv, hz (by omega)]
          · simp [Memory.read, hb, Ne.symm hb]
        · by_cases hb : b = a
          · simp [Memory.read, hb]
          · simp [Memory.read, hb, Ne.symm hb]
      · by_cases hk : k = b
        · subst hk; simp [Memory.read]; omega
        · simp [Memory.read, hk, ih]

/-- Two memories in canonical form that read alike everywhere are the same list. -/
theorem memory_ext : ∀ {lo : Nat} {m m' : Memory}, Memory.wfFrom lo m = true → Memory.wfFrom lo m' = true →
    (∀ a, Memory.read m a = Memory.read m' a) → m = m'
  | _, [], [], _, _, _ => rfl
  | lo, (k, c) :: m, [], hm, _, h => by
    simp only [Memory.wfFrom, Bool.and_eq_true, bne_iff_ne] at hm
    have := h k
    simp only [Memory.read, if_true] at this
    exact absurd this hm.1.2
  | lo, [], (k, c) :: m, _, hm, h => by
    simp only [Memory.wfFrom, Bool.and_eq_true, bne_iff_ne] at hm
    have := h k
    simp only [Memory.read, if_true] at this
    exact absurd this.symm hm.1.2
  | lo, (k, c) :: m, (k', c') :: m', hm, hm', h => by
    have hc := hm; have hc' := hm'
    simp only [Memory.wfFrom, Bool.and_eq_true, decide_eq_true_eq, bne_iff_ne] at hc hc'
    have hk : k = k' := by
      rcases Nat.lt_trichotomy k k' with hlt | heq | hlt
      · have := h k
        rw [Memory.read, if_pos rfl, Memory.read, if_neg (by omega), read_below hc'.2 (by omega)] at this
        exact absurd this hc.1.2
      · exact heq
      · have := h k'
        rw [Memory.read, if_neg (by omega), read_below hc.2 (by omega), Memory.read, if_pos rfl] at this
        exact absurd this.symm hc'.1.2
    subst hk
    have hcc : c = c' := by simpa [Memory.read] using h k
    subst hcc
    have ht : ∀ a, Memory.read m a = Memory.read m' a := fun a => by
      by_cases ha : k = a
      · subst ha
        rw [read_below hc.2 (Nat.lt_succ_self _), read_below hc'.2 (Nat.lt_succ_self _)]
      · have := h a
        rwa [Memory.read, if_neg ha, Memory.read, if_neg ha] at this
    rw [memory_ext hc.2 hc'.2 ht]

/-- A write below 32768 keeps the canonical form. -/
theorem wfFrom_write {a : Nat} (v : Cell) (ha : a < Config.memCells) :
    ∀ {lo : Nat} {m : Memory}, lo ≤ a → Memory.wfFrom lo m = true → Memory.wfFrom lo (Memory.write m a v) = true
  | lo, [], hl, _ => by
    rw [Memory.write]; split
    · rfl
    · rename_i hv; simp only [Memory.wfFrom, Bool.and_eq_true, decide_eq_true_eq, bne_iff_ne]
      exact ⟨⟨⟨hl, ha⟩, hv⟩, trivial⟩
  | lo, (k, c) :: m, hl, hm => by
    have hm' := hm
    simp only [Memory.wfFrom, Bool.and_eq_true, decide_eq_true_eq] at hm'
    rw [Memory.write]
    split
    · rename_i h
      split
      · exact hm
      · rename_i hv
        simp only [Memory.wfFrom, Bool.and_eq_true, decide_eq_true_eq]
        exact ⟨⟨⟨hl, ha⟩, by simpa using hv⟩, ⟨⟨by omega, hm'.1.1.2⟩, hm'.1.2⟩, hm'.2⟩
    · split
      · rename_i h
        split
        · exact wfFrom_mono (by omega) hm'.2
        · rename_i hv
          simp only [Memory.wfFrom, Bool.and_eq_true, decide_eq_true_eq]
          exact ⟨⟨⟨hl, ha⟩, by simpa using hv⟩, h ▸ hm'.2⟩
      · simp only [Memory.wfFrom, Bool.and_eq_true, decide_eq_true_eq]
        exact ⟨hm'.1, wfFrom_write v ha (by omega) hm'.2⟩

/-- Every write through the bound check keeps the canonical form. -/
theorem memWrite_wf {m m' : Memory} {a : Nat} {v : Cell} (hm : m.wf = true) (h : memWrite m a v = .ok m') :
    m'.wf = true := by
  unfold memWrite at h
  split at h
  · rename_i ha
    cases h
    exact wfFrom_write v ha (Nat.zero_le _) hm
  · cases h

/-- The memory made of a list of Cells is in canonical form, from its base address on. -/
theorem wfFrom_ofCells : ∀ (cs : List Cell) (base : Nat), base + cs.length ≤ Config.memCells →
    Memory.wfFrom base (Memory.ofCells base cs) = true
  | [], _, _ => rfl
  | c :: cs, base, h => by
    simp only [List.length_cons] at h
    have ih := wfFrom_ofCells cs (base + 1) (by omega)
    rw [Memory.ofCells]
    split
    · exact wfFrom_mono (by omega) ih
    · rename_i hc
      simp only [Memory.wfFrom, Bool.and_eq_true, decide_eq_true_eq]
      exact ⟨⟨⟨Nat.le_refl _, by simp only [Config.memCells] at h ⊢; omega⟩, by simpa using hc⟩, ih⟩

/-- The Cells of a list stand at consecutive addresses from the base on, and every other Cell is 0 (R171). -/
theorem read_ofCells (a : Nat) : ∀ (cs : List Cell) (base : Nat),
    Memory.read (Memory.ofCells base cs) a = if base ≤ a then cs.getD (a - base) 0 else 0
  | [], base => by simp [Memory.ofCells, Memory.read]
  | c :: cs, base => by
    have ih := read_ofCells a cs (base + 1)
    by_cases h : base = a
    · subst h
      rw [Memory.ofCells]
      split
      · rename_i hc; rw [ih, if_neg (by omega)]; simp [hc]
      · simp [Memory.read]
    · have hd : ∀ n, a - base = n + 1 → (c :: cs).getD (a - base) 0 = cs.getD n 0 := fun n hn => by simp [hn]
      have key : Memory.read (Memory.ofCells base (c :: cs)) a = Memory.read (Memory.ofCells (base + 1) cs) a := by
        rw [Memory.ofCells]
        split
        · rfl
        · rw [Memory.read, if_neg h]
      rw [key, ih]
      by_cases hl : base + 1 ≤ a
      · rw [if_pos hl, if_pos (by omega), hd (a - (base + 1)) (by omega)]
      · rw [if_neg hl, if_neg (by omega)]

end Sys2Proof.Machine
end

