-- ==== Sys2Proof/Laws/State.lean ====
section
/-! SUPPORT. One lemma per field per state update. -/

namespace Sys2Proof.Machine

section
variable (s : State) (r : Reg) (v : Word) (c : Cell) (m : Memory) (k : Mode) (f : Raise) (q : StopReport) (i : Instr)

@[simp] theorem setReg_regs : (s.setReg r v).regs = s.regs.set r v := rfl
@[simp] theorem setReg_pc : (s.setReg r v).pc = s.pc := rfl
@[simp] theorem setReg_stack : (s.setReg r v).stack = s.stack := rfl
@[simp] theorem setReg_mem : (s.setReg r v).mem = s.mem := rfl
@[simp] theorem setReg_mode : (s.setReg r v).mode = s.mode := rfl
@[simp] theorem setReg_fault : (s.setReg r v).fault = s.fault := rfl
@[simp] theorem setReg_output : (s.setReg r v).output = s.output := rfl
@[simp] theorem setReg_input : (s.setReg r v).input = s.input := rfl
@[simp] theorem setReg_host : (s.setReg r v).host = s.host := rfl

@[simp] theorem setPc_regs : (s.setPc c).regs = s.regs := rfl
@[simp] theorem setPc_reg : (s.setPc c).reg r = s.reg r := rfl
@[simp] theorem setPc_pc : (s.setPc c).pc = c := rfl
@[simp] theorem setPc_stack : (s.setPc c).stack = s.stack := rfl
@[simp] theorem setPc_mem : (s.setPc c).mem = s.mem := rfl
@[simp] theorem setPc_mode : (s.setPc c).mode = s.mode := rfl
@[simp] theorem setPc_fault : (s.setPc c).fault = s.fault := rfl
@[simp] theorem setPc_output : (s.setPc c).output = s.output := rfl
@[simp] theorem setPc_input : (s.setPc c).input = s.input := rfl
@[simp] theorem setPc_host : (s.setPc c).host = s.host := rfl

@[simp] theorem setMem_regs : (s.setMem m).regs = s.regs := rfl
@[simp] theorem setMem_reg : (s.setMem m).reg r = s.reg r := rfl
@[simp] theorem setMem_pc : (s.setMem m).pc = s.pc := rfl
@[simp] theorem setMem_stack : (s.setMem m).stack = s.stack := rfl
@[simp] theorem setMem_mem : (s.setMem m).mem = m := rfl
@[simp] theorem setMem_mode : (s.setMem m).mode = s.mode := rfl
@[simp] theorem setMem_fault : (s.setMem m).fault = s.fault := rfl
@[simp] theorem setMem_output : (s.setMem m).output = s.output := rfl
@[simp] theorem setMem_input : (s.setMem m).input = s.input := rfl
@[simp] theorem setMem_host : (s.setMem m).host = s.host := rfl

@[simp] theorem push_regs : (s.push c).regs = s.regs := rfl
@[simp] theorem push_reg : (s.push c).reg r = s.reg r := rfl
@[simp] theorem push_pc : (s.push c).pc = s.pc := rfl
@[simp] theorem push_stack : (s.push c).stack = c :: s.stack := rfl
@[simp] theorem push_mem : (s.push c).mem = s.mem := rfl
@[simp] theorem push_mode : (s.push c).mode = s.mode := rfl
@[simp] theorem push_fault : (s.push c).fault = s.fault := rfl
@[simp] theorem push_output : (s.push c).output = s.output := rfl
@[simp] theorem push_input : (s.push c).input = s.input := rfl
@[simp] theorem push_host : (s.push c).host = s.host := rfl

@[simp] theorem emit_regs : (s.emit v).regs = s.regs := rfl
@[simp] theorem emit_reg : (s.emit v).reg r = s.reg r := rfl
@[simp] theorem emit_pc : (s.emit v).pc = s.pc := rfl
@[simp] theorem emit_stack : (s.emit v).stack = s.stack := rfl
@[simp] theorem emit_mem : (s.emit v).mem = s.mem := rfl
@[simp] theorem emit_mode : (s.emit v).mode = s.mode := rfl
@[simp] theorem emit_fault : (s.emit v).fault = s.fault := rfl
@[simp] theorem emit_output : (s.emit v).output = s.output ++ [v] := rfl
@[simp] theorem emit_input : (s.emit v).input = s.input := rfl
@[simp] theorem emit_host : (s.emit v).host = s.host := rfl

@[simp] theorem setMode_regs : (s.setMode k).regs = s.regs := rfl
@[simp] theorem setMode_reg : (s.setMode k).reg r = s.reg r := rfl
@[simp] theorem setMode_pc : (s.setMode k).pc = s.pc := rfl
@[simp] theorem setMode_stack : (s.setMode k).stack = s.stack := rfl
@[simp] theorem setMode_mem : (s.setMode k).mem = s.mem := rfl
@[simp] theorem setMode_mode : (s.setMode k).mode = k := rfl
@[simp] theorem setMode_fault : (s.setMode k).fault = s.fault := rfl
@[simp] theorem setMode_output : (s.setMode k).output = s.output := rfl
@[simp] theorem setMode_input : (s.setMode k).input = s.input := rfl
@[simp] theorem setMode_host : (s.setMode k).host = s.host := rfl

@[simp] theorem takeFault_regs : (s.takeFault f).regs = s.regs := rfl
@[simp] theorem takeFault_reg : (s.takeFault f).reg r = s.reg r := rfl
@[simp] theorem takeFault_pc : (s.takeFault f).pc = s.pc := rfl
@[simp] theorem takeFault_stack : (s.takeFault f).stack = s.stack := rfl
@[simp] theorem takeFault_mem : (s.takeFault f).mem = s.mem := rfl
@[simp] theorem takeFault_mode : (s.takeFault f).mode = .halted := rfl
@[simp] theorem takeFault_fault : (s.takeFault f).fault = some ⟨f.cause, s.pc, f.info⟩ := rfl
@[simp] theorem takeFault_output : (s.takeFault f).output = s.output := rfl
@[simp] theorem takeFault_input : (s.takeFault f).input = s.input := rfl
@[simp] theorem takeFault_host : (s.takeFault f).host = s.host := rfl

@[simp] theorem resume_regs : s.resume.regs = s.regs := rfl
@[simp] theorem resume_reg : s.resume.reg r = s.reg r := rfl
@[simp] theorem resume_pc : s.resume.pc = s.pc := rfl
@[simp] theorem resume_stack : s.resume.stack = s.stack := rfl
@[simp] theorem resume_mem : s.resume.mem = s.mem := rfl
@[simp] theorem resume_mode : s.resume.mode = .running := rfl
@[simp] theorem resume_fault : s.resume.fault = none := rfl
@[simp] theorem resume_output : s.resume.output = s.output := rfl
@[simp] theorem resume_input : s.resume.input = s.input := rfl
@[simp] theorem resume_host :
    s.resume.host = { s.host with skip := s.host.reportedAt s.pc, report := none, inStep := false } := rfl

@[simp] theorem stopWith_regs : (s.stopWith q).regs = s.regs := rfl
@[simp] theorem stopWith_reg : (s.stopWith q).reg r = s.reg r := rfl
@[simp] theorem stopWith_pc : (s.stopWith q).pc = s.pc := rfl
@[simp] theorem stopWith_stack : (s.stopWith q).stack = s.stack := rfl
@[simp] theorem stopWith_mem : (s.stopWith q).mem = s.mem := rfl
@[simp] theorem stopWith_mode : (s.stopWith q).mode = .stopped := rfl
@[simp] theorem stopWith_fault : (s.stopWith q).fault = s.fault := rfl
@[simp] theorem stopWith_output : (s.stopWith q).output = s.output := rfl
@[simp] theorem stopWith_input : (s.stopWith q).input = s.input := rfl
@[simp] theorem stopWith_host : (s.stopWith q).host = { s.host with report := some q } := rfl

/-- Everything `retire` does, field by field. -/
@[simp] theorem retire_regs (n : Nat) : (retire s r v n).regs = s.regs.set r v := rfl
@[simp] theorem retire_pc (n : Nat) : (retire s r v n).pc = s.next n := rfl
@[simp] theorem retire_stack (n : Nat) : (retire s r v n).stack = s.stack := rfl
@[simp] theorem retire_mem (n : Nat) : (retire s r v n).mem = s.mem := rfl
@[simp] theorem retire_mode (n : Nat) : (retire s r v n).mode = s.mode := rfl
@[simp] theorem retire_fault (n : Nat) : (retire s r v n).fault = s.fault := rfl
@[simp] theorem retire_output (n : Nat) : (retire s r v n).output = s.output := rfl
@[simp] theorem retire_input (n : Nat) : (retire s r v n).input = s.input := rfl
@[simp] theorem retire_host (n : Nat) : (retire s r v n).host = s.host := rfl

@[simp] theorem traced_regs : (s.traced i).regs = s.regs := by unfold State.traced; split <;> rfl
@[simp] theorem traced_reg : (s.traced i).reg r = s.reg r := by unfold State.traced; split <;> rfl
@[simp] theorem traced_pc : (s.traced i).pc = s.pc := by unfold State.traced; split <;> rfl
@[simp] theorem traced_stack : (s.traced i).stack = s.stack := by unfold State.traced; split <;> rfl
@[simp] theorem traced_mem : (s.traced i).mem = s.mem := by unfold State.traced; split <;> rfl
@[simp] theorem traced_mode : (s.traced i).mode = s.mode := by unfold State.traced; split <;> rfl
@[simp] theorem traced_fault : (s.traced i).fault = s.fault := by unfold State.traced; split <;> rfl
@[simp] theorem traced_output : (s.traced i).output = s.output := by unfold State.traced; split <;> rfl
@[simp] theorem traced_input : (s.traced i).input = s.input := by unfold State.traced; split <;> rfl

end

section
variable (s : State) (r : Reg)

@[simp] theorem endRound_regs : s.endRound.regs = s.regs := rfl
@[simp] theorem endRound_reg : s.endRound.reg r = s.reg r := rfl
@[simp] theorem endRound_pc : s.endRound.pc = s.pc := rfl
@[simp] theorem endRound_stack : s.endRound.stack = s.stack := rfl
@[simp] theorem endRound_mem : s.endRound.mem = s.mem := rfl
@[simp] theorem endRound_mode : s.endRound.mode = s.mode := rfl
@[simp] theorem endRound_fault : s.endRound.fault = s.fault := rfl
@[simp] theorem endRound_output : s.endRound.output = s.output := rfl
@[simp] theorem endRound_input : s.endRound.input = s.input := rfl
@[simp] theorem endRound_host : s.endRound.host = { s.host with skip := false, inStep := false } := rfl

end

section
variable (s : State) (m : Memory) (x : RegFile) (st : List Cell) (p : Cell)

@[simp] theorem loaded_regs : (s.loaded m x st p).regs = x := rfl
@[simp] theorem loaded_pc : (s.loaded m x st p).pc = p := rfl
@[simp] theorem loaded_stack : (s.loaded m x st p).stack = st := rfl
@[simp] theorem loaded_mem : (s.loaded m x st p).mem = m := rfl
@[simp] theorem loaded_mode : (s.loaded m x st p).mode = .stopped := rfl
@[simp] theorem loaded_fault : (s.loaded m x st p).fault = none := rfl
@[simp] theorem loaded_output : (s.loaded m x st p).output = [] := rfl
@[simp] theorem loaded_input : (s.loaded m x st p).input = s.input := rfl
@[simp] theorem loaded_host : (s.loaded m x st p).host = s.host.afterLoad := rfl

@[simp] theorem snapshot_memory : s.snapshot.memory = s.mem.toCells Config.memCells := by rw [State.snapshot]
@[simp] theorem snapshot_registers : s.snapshot.registers = s.regs.cells := rfl
@[simp] theorem snapshot_stack : s.snapshot.stack = s.stack := rfl
@[simp] theorem snapshot_pc : s.snapshot.pc = s.pc := rfl

end

/-- Reading the register just written gives the value, reading another gives what it held (R12). -/
theorem regFile_get_set (x : RegFile) (d r : Reg) (v : Word) :
    (x.set d v).get r = if r = d then v else x.get r := by
  cases d <;> cases r <;> rfl

@[simp] theorem regFile_get_set_self (x : RegFile) (d : Reg) (v : Word) : (x.set d v).get d = v := by
  simp [regFile_get_set]

@[simp] theorem setReg_reg (s : State) (d r : Reg) (v : Word) :
    (s.setReg d v).reg r = if r = d then v else s.reg r := regFile_get_set s.regs d r v

@[simp] theorem retire_reg (s : State) (d r : Reg) (v : Word) (n : Nat) :
    (retire s d v n).reg r = if r = d then v else s.reg r := regFile_get_set s.regs d r v

end Sys2Proof.Machine
end

