-- ==== Sys2Proof/Laws/Exec.lean ====
section
/-! SUPPORT. One lemma per shared operation and per meaning that may fault: everything it can answer. -/

namespace Sys2Proof.Machine

theorem toWord_ok {c : Cell} (h : c.toNat < 32768) : toWord c = .ok (low15 c) := by simp [toWord, h]

theorem toWord_error {c : Cell} (h : 32768 ≤ c.toNat) : toWord c = .error ⟨.valueOutOfRange, some c⟩ := by
  simp only [toWord, Config.modulus]; rw [if_neg (by omega)]

/-- The data access of `rmem` never fails its bound check (R34). -/
theorem memRead_word (m : Memory) (w : Word) : memRead m w.toNat = .ok (Memory.read m w.toNat) := by
  simp only [memRead, Config.memCells]; rw [if_pos w.isLt]

/-- The data access of `wmem` never fails its bound check (R34). -/
theorem memWrite_word (m : Memory) (w : Word) (v : Cell) : memWrite m w.toNat v = .ok (Memory.write m w.toNat v) := by
  simp only [memWrite, Config.memCells]; rw [if_pos w.isLt]

/-- Everything `pop` can do (R82). -/
theorem execPop_cases (d : Reg) (s : State) :
    (s.stack = [] ∧ execPop d s = .next (s.takeFault ⟨.stackUnderflow, none⟩)) ∨
    ∃ c rest, s.stack = c :: rest ∧
      ((32768 ≤ c.toNat ∧ execPop d s = .next (s.takeFault ⟨.valueOutOfRange, some c⟩)) ∨
       (c.toNat < 32768 ∧
        execPop d s = .next (({ s with stack := rest }.setReg d (low15 c)).setPc (s.next 1)))) := by
  cases hs : s.stack with
  | nil => left; exact ⟨rfl, by simp only [execPop, State.pop, hs]; rfl⟩
  | cons c rest =>
    right
    refine ⟨c, rest, rfl, ?_⟩
    by_cases hc : c.toNat < 32768
    · right; refine ⟨hc, ?_⟩; simp only [execPop, State.pop, hs]; show commit s (toWord c >>= _) = _
      rw [toWord_ok hc]; rfl
    · left; refine ⟨by omega, ?_⟩; simp only [execPop, State.pop, hs]; show commit s (toWord c >>= _) = _
      rw [toWord_error (by omega)]; rfl

/-- Everything `ret` can do (R95). -/
theorem execRet_cases (s : State) :
    (s.stack = [] ∧ execRet s = .next (s.takeFault ⟨.stackUnderflow, none⟩)) ∨
    ∃ c rest, s.stack = c :: rest ∧ execRet s = .next ({ s with stack := rest }.setPc c) := by
  cases hs : s.stack with
  | nil => left; exact ⟨rfl, by simp only [execRet, State.pop, hs]; rfl⟩
  | cons c rest => right; exact ⟨c, rest, rfl, by simp only [execRet, State.pop, hs]; rfl⟩

/-- Everything `mod` can do (R103). -/
theorem execMod_cases (d : Reg) (b c : Operand) (s : State) :
    ((c.val s).toNat = 0 ∧ execMod d b c s = .next (s.takeFault ⟨.divisionByZero, none⟩)) ∨
    ((c.val s).toNat ≠ 0 ∧
      execMod d b c s = .next (retire s d (narrow ((b.val s).toNat % (c.val s).toNat)) 3)) := by
  by_cases h : (c.val s).toNat = 0
  · left; exact ⟨h, by simp only [execMod, aluMod, h, if_true]; rfl⟩
  · right; exact ⟨h, by simp only [execMod, aluMod, h, if_false]; rfl⟩

/-- Everything `rmem` can do (R115). -/
theorem execRmem_cases (d : Reg) (b : Operand) (s : State) :
    (32768 ≤ (Memory.read s.mem (b.val s).toNat).toNat ∧
      execRmem d b s =
        .next (s.takeFault ⟨.valueOutOfRange, some (Memory.read s.mem (b.val s).toNat)⟩)) ∨
    ((Memory.read s.mem (b.val s).toNat).toNat < 32768 ∧
      execRmem d b s = .next (retire s d (low15 (Memory.read s.mem (b.val s).toNat)) 2)) := by
  unfold execRmem
  rw [memRead_word]
  by_cases h : (Memory.read s.mem (b.val s).toNat).toNat < 32768
  · right; refine ⟨h, ?_⟩; show commit s (toWord _ >>= _) = _; rw [toWord_ok h]; rfl
  · left; refine ⟨by omega, ?_⟩; show commit s (toWord _ >>= _) = _; rw [toWord_error (by omega)]; rfl

/-- What `wmem` does (R116). -/
theorem execWmem_eq (a b : Operand) (s : State) :
    execWmem a b s =
      .next ((s.setMem (Memory.write s.mem (a.val s).toNat (zext16 (b.val s)))).setPc (s.next 2)) := by
  unfold execWmem; rw [memWrite_word]; rfl

/-- Everything `in` can do (R122, R123). -/
theorem execIn_cases (d : Reg) (s : State) :
    (s.input = [] ∧ execIn d s = .next s) ∨
    ∃ v rest, s.input = v :: rest ∧ execIn d s = .next (retire { s with input := rest } d v 1) := by
  cases hs : s.input with
  | nil => left; exact ⟨rfl, by simp only [execIn, hs]⟩
  | cons v rest => right; exact ⟨v, rest, rfl, by simp only [execIn, hs]⟩

/-- The trace line changes nothing that an operand reads. -/
@[simp] theorem val_traced (o : Operand) (s : State) (i : Instr) : o.val (s.traced i) = o.val s := by
  cases o <;> simp [Operand.val]

/-- An operand depends on the registers alone. -/
theorem val_congr {s s' : State} (h : SameRegs s s') (o : Operand) : o.val s' = o.val s := by
  cases o with
  | lit v => rfl
  | reg r => exact h r

end Sys2Proof.Machine
end

