-- ==== Sys2Proof/Laws/PerInstr.lean ====
section
/-! SUPPORT. The family of per-instruction lemmas named in LAWS.json: the Cells an instruction is encoded in pass the
checks of WellFormed and are as many as its length says. -/

namespace Sys2Proof.Laws.EncodedCells

/-- The opcode Cell is valid, the operand Cells fit the roles, and there are `length` Cells in all (R50, R54, R57). -/
def Statement (i : Instr) : Prop :=
  opcodeCellOk (BitVec.ofNat 16 i.op.number) = true ∧ operandCellsOk i.op.roles i.operandCells = true ∧
    (encode i).length = i.length

theorem destOk (r : Reg) : destCellOk (encodeReg r) = true := by cases r <;> rfl

theorem valueOk (o : Operand) : valueCellOk (encodeOperand o) = true := by
  cases o with
  | lit v => simp [valueCellOk, encodeOperand]; omega
  | reg r => cases r <;> rfl

/-- The whole check of an instruction, from the checks of its operand Cells. -/
theorem holds (i : Instr) : Statement i := by
  cases i <;>
    simp [Statement, Instr.op, Op.number, Op.roles, Op.arity, Instr.operandCells, Instr.length, encode, opcodeCellOk,
      operandCellsOk, operandCellOk, destOk, valueOk]

theorem halt : Statement .halt := holds _
theorem set (a : Reg) (b : Operand) : Statement (.set a b) := holds _
theorem push (a : Operand) : Statement (.push a) := holds _
theorem pop (a : Reg) : Statement (.pop a) := holds _
theorem eq (a : Reg) (b c : Operand) : Statement (.eq a b c) := holds _
theorem gt (a : Reg) (b c : Operand) : Statement (.gt a b c) := holds _
theorem jmp (a : Operand) : Statement (.jmp a) := holds _
theorem jt (a b : Operand) : Statement (.jt a b) := holds _
theorem jf (a b : Operand) : Statement (.jf a b) := holds _
theorem add (a : Reg) (b c : Operand) : Statement (.add a b c) := holds _
theorem mult (a : Reg) (b c : Operand) : Statement (.mult a b c) := holds _
theorem mod (a : Reg) (b c : Operand) : Statement (.mod a b c) := holds _
theorem and (a : Reg) (b c : Operand) : Statement (.and a b c) := holds _
theorem or (a : Reg) (b c : Operand) : Statement (.or a b c) := holds _
theorem not (a : Reg) (b : Operand) : Statement (.not a b) := holds _
theorem rmem (a : Reg) (b : Operand) : Statement (.rmem a b) := holds _
theorem wmem (a b : Operand) : Statement (.wmem a b) := holds _
theorem call (a : Operand) : Statement (.call a) := holds _
theorem ret : Statement .ret := holds _
theorem out (a : Operand) : Statement (.out a) := holds _
theorem inp (a : Reg) : Statement (.inp a) := holds _
theorem noop : Statement .noop := holds _

end Sys2Proof.Laws.EncodedCells
end

