-- ==== Sys2Proof/Laws/Step.lean ====
section
/-! SUPPORT. What a step, the end of a round and a host operation can do, said once each. -/

namespace Sys2Proof.Machine

/-- Every meaning answers a next state, and the host's state is in it as before. -/
theorem exec_next_host (i : Instr) (s : State) : ∃ t, exec i s = .next t ∧ t.host = s.host := by
  cases i with
  | pop d => rcases execPop_cases d s with ⟨_, e⟩ | ⟨c, r, _, ⟨_, e⟩ | ⟨_, e⟩⟩ <;> exact ⟨_, e, rfl⟩
  | ret => rcases execRet_cases s with ⟨_, e⟩ | ⟨c, r, _, e⟩ <;> exact ⟨_, e, rfl⟩
  | mod d b c => rcases execMod_cases d b c s with ⟨_, e⟩ | ⟨_, e⟩ <;> exact ⟨_, e, rfl⟩
  | rmem d b => rcases execRmem_cases d b s with ⟨_, e⟩ | ⟨_, e⟩ <;> exact ⟨_, e, rfl⟩
  | wmem a b => exact ⟨_, execWmem_eq a b s, rfl⟩
  | inp d => rcases execIn_cases d s with ⟨_, e⟩ | ⟨v, r, _, e⟩ <;> exact ⟨_, e, rfl⟩
  | jt a b => exact ⟨_, rfl, by split <;> rfl⟩
  | jf a b => exact ⟨_, rfl, by split <;> rfl⟩
  | _ => exact ⟨_, rfl, rfl⟩

/-- A waiting `in` leaves the state as it is (R123). -/
theorem exec_of_waits {i : Instr} {s : State} (h : i.waits s = true) : exec i s = .next s := by
  cases i <;> simp [Instr.waits] at h
  simp [exec, execIn, h]

/-- Whether an instruction waits depends on the input stream only. -/
theorem waits_traced (i j : Instr) (s : State) : i.waits (s.traced j) = i.waits s := by
  cases i <;> simp [Instr.waits]

/-- A core that nothing stops runs a cycle (R154). -/
theorem step_of_ready {s : State} (h : s.ready) : step s = cycle s := by
  obtain ⟨h1, h2, h3⟩ := h
  simp [step, h1, runRound, h2, h3]

/-- The end of a round: a wait, the end of the loop by a fault or `halt`, the next round, or a watch stop (R154). -/
theorem settle_cases (s : State) (i : Instr) (u : State) :
    (i.waits s = true ∧ s.settle i u = { u with host := { u.host with inStep := true } }) ∨
    (i.waits s = false ∧ u.mode ≠ .running ∧ s.settle i u = u) ∨
    (i.waits s = false ∧ u.mode = .running ∧ s.changedWatch u = none ∧ s.settle i u = u.endRound) ∨
    (i.waits s = false ∧ u.mode = .running ∧ ∃ w, s.changedWatch u = some w ∧
      s.settle i u = u.endRound.stopWith (.watch w.reg (s.reg w.reg) (u.reg w.reg))) := by
  unfold State.settle
  cases hw : i.waits s
  · by_cases hm : u.mode = .running
    · cases hc : s.changedWatch u <;> simp [hm]
    · simp [hm]
  · simp

/-- The step of a core that nothing stops: a decode fault, or a decoded instruction and the end of the round (R62, R63). -/
theorem step_ready_cases {s t : State} (hr : s.ready) (h : step s = .next t) :
    (∃ e, s.fetch = .error e ∧ t = s.takeFault (decodeRaise s.pc e)) ∨
    (∃ i rest u, s.fetch = .ok (i, rest) ∧ exec i (s.traced i) = .next u ∧ t = s.settle i u) := by
  rw [step_of_ready hr, cycle] at h
  split at h
  · rename_i e hf; cases h; exact .inl ⟨e, hf, rfl⟩
  · rename_i i rest hf
    obtain ⟨u, hu, -⟩ := exec_next_host i (s.traced i)
    rw [hu] at h; cases h
    exact .inr ⟨i, rest, u, hf, hu, rfl⟩

/-- `continue()` is accepted from every `Stopped` state (R150, R154). -/
theorem perform_resume_stopped {s : State} (h : s.mode = .stopped) : perform .resume s = (s.resume, .ok) := by
  simp [perform, continueRun, State.mayMutate, h, changed]

/-- Where the host may not change the state, an operation that is no `load` leaves all but the host's state alone (R150). -/
theorem answer_of_not_mayMutate {s : State} (h : s.mayMutate = false) (c : Command) (hb : ∀ b, c ≠ .loadImage b)
    (hn : ∀ n, c ≠ .loadSnapshot n) : ∃ d : Debugger, s.answer c = { s with host := d } := by
  unfold State.answer
  cases c with
  | loadImage b => exact absurd rfl (hb b)
  | loadSnapshot n => exact absurd rfl (hn n)
  | writeRegister r v => simp only [perform, writeRegister, h, changed]; exact ⟨_, rfl⟩
  | writeMemory a v => simp only [perform, writeMemory, h, changed]; exact ⟨_, rfl⟩
  | inspectMemory a => dsimp only [perform]; split <;> exact ⟨_, rfl⟩
  | resume => simp only [perform, continueRun, h, changed]; exact ⟨_, rfl⟩
  | setBreakpoint a => dsimp only [perform, setBreakpoint]; split <;> exact ⟨_, rfl⟩
  | setWatch r => dsimp only [perform, setWatch]; split <;> exact ⟨_, rfl⟩
  | toggleTrace => exact ⟨_, rfl⟩
  | save => dsimp only [perform]; split <;> exact ⟨_, rfl⟩

end Sys2Proof.Machine
end

