-- ==== Sys2Proof/Tests/Slice0.lean ====
section
/-! SUPPORT. The model's own tests. Every expected result is written by hand from the encodings of 30_encoding.md R54 and
R56 and from the vectors of 95_test_vectors.md, whose ids stand beside the tests. The last part shows, for every statement
with hypotheses, values that meet them all. -/

namespace Sys2Proof.Tests

open Machine

/-- A running core with the given Cells from address 0 on, everything else as at reset. -/
def start (cs : List Cell) : State := { mem := Memory.ofCells 0 cs, mode := .running }

/-- The state a step of the machine leaves. -/
def after (s : State) : State :=
  match step s with
  | .next t => t
  | _ => s

/-- Pc, mode and fault record after one step from the given Cells. -/
def outcome (s : State) : Cell × Mode × Option FaultRecord := ((after s).pc, (after s).mode, (after s).fault)

/-- A state no reset gives, that meets the invariant: at the top of memory, with a stack, memory, a fault and triggers. -/
def faulted : State :=
  { regs := { r0 := 32767 }, pc := 32768, stack := [32768, 0], mem := [(0, 21), (32767, 65535)], mode := .halted
    fault := some ⟨.outOfBounds, 32768, some 32768⟩, output := [65], input := [7]
    host := { breakpoints := [⟨6, true⟩, ⟨0, true⟩], watches := [⟨.r1, true⟩], script := [.writeMemory 5 65535] } }

/-! ### Decoding: every constructor, from Cells written out by hand (R54, R56) -/

theorem test_decode_halt : decode [0] = .ok (.halt, []) := rfl
theorem test_decode_set : decode [1, 32768, 4] = .ok (.set .r0 (.lit 4), []) := rfl
theorem test_decode_push : decode [2, 32771] = .ok (.push (.reg .r3), []) := rfl
theorem test_decode_pop : decode [3, 32770] = .ok (.pop .r2, []) := rfl
theorem test_decode_eq : decode [4, 32768, 32769, 7] = .ok (.eq .r0 (.reg .r1) (.lit 7), []) := rfl
theorem test_decode_gt : decode [5, 32774, 32767, 0] = .ok (.gt .r6 (.lit 32767) (.lit 0), []) := rfl
theorem test_decode_jmp : decode [6, 32769] = .ok (.jmp (.reg .r1), []) := rfl
theorem test_decode_jt : decode [7, 32768, 6] = .ok (.jt (.reg .r0) (.lit 6), []) := rfl
theorem test_decode_jf : decode [8, 32772, 17] = .ok (.jf (.reg .r4) (.lit 17), []) := rfl
theorem test_decode_add : decode [9, 32768, 32768, 32769] = .ok (.add .r0 (.reg .r0) (.reg .r1), []) := rfl
theorem test_decode_mult : decode [10, 32769, 32769, 32768] = .ok (.mult .r1 (.reg .r1) (.reg .r0), []) := rfl
theorem test_decode_mod : decode [11, 32769, 32768, 32770] = .ok (.mod .r1 (.reg .r0) (.reg .r2), []) := rfl
theorem test_decode_and : decode [12, 32768, 12, 10] = .ok (.and .r0 (.lit 12) (.lit 10), []) := rfl
theorem test_decode_or : decode [13, 32773, 12, 32775] = .ok (.or .r5 (.lit 12) (.reg .r7), []) := rfl
theorem test_decode_not : decode [14, 32768, 21845] = .ok (.not .r0 (.lit 21845), []) := rfl
theorem test_decode_rmem : decode [15, 32770, 100] = .ok (.rmem .r2 (.lit 100), []) := rfl
theorem test_decode_wmem : decode [16, 100, 32769] = .ok (.wmem (.lit 100) (.reg .r1), []) := rfl
theorem test_decode_call : decode [17, 32771] = .ok (.call (.reg .r3), []) := rfl
theorem test_decode_ret : decode [18, 5] = .ok (.ret, [5]) := rfl
theorem test_decode_out : decode [19, 32768] = .ok (.out (.reg .r0), []) := rfl
theorem test_decode_in : decode [20, 32775] = .ok (.inp .r7, []) := rfl
theorem test_decode_noop : decode [21, 22] = .ok (.noop, [22]) := rfl

/-- V-DEC-9 to V-DEC-12, V-DEC-19: what does not decode, and which check fails first. -/
theorem test_decode_refusals :
    decode [22] = .error (.invalidOpcode 22) ∧ decode [32768] = .error (.invalidOpcode 32768) ∧
    decode [65535] = .error (.invalidOpcode 65535) ∧ decode [2, 32776] = .error (.invalidOperand 32776) ∧
    decode [1, 3] = .error (.invalidOperand 3) ∧ decode [9, 32768, 1] = .error (.missing 3) := ⟨rfl, rfl, rfl, rfl, rfl, rfl⟩

/-- Bit 0 of the number is bit 0 of the first Cell, later Cells count on from bit 16: `1, 32768, 4`. -/
theorem test_table_word : decodeTableWord 48 (1 + 32768 * 65536 + 4 * 65536 ^ 2) = some (.set .r0 (.lit 4)) := by decide

/-- A row's 16 bits alone leave its operand Cells 0: a literal 0 for `push`, no destination for `set` (R59). -/
theorem test_table_word_short : decodeTableWord 16 2 = some (.push (.lit 0)) ∧ decodeTableWord 16 1 = none := by decide

/-! ### Well-formedness: one ill-formed term for each check -/

theorem test_wf_opcode : opcodeCellOk 21 = true ∧ opcodeCellOk 22 = false ∧ opcodeCellOk 32768 = false := by decide
theorem test_wf_value : valueCellOk 32775 = true ∧ valueCellOk 32776 = false := by decide
theorem test_wf_dest : destCellOk 32768 = true ∧ destCellOk 32767 = false ∧ destCellOk 32776 = false := by decide
theorem test_wf_operands :
    operandCellsOk Op.set.roles [32768, 4] = true ∧ operandCellsOk Op.set.roles [4, 32768] = false ∧
    operandCellsOk Op.set.roles [32768] = false ∧ operandCellsOk Op.ret.roles [0] = false := by decide
theorem test_wf_fits : Instr.noop.fitsAt 32767 = true ∧ (Instr.add .r0 (.lit 1) (.lit 2)).fitsAt 32765 = false := by decide

/-! ### Instructions, one step each -/

/-- V-SYS-1. -/
theorem test_halt : outcome (start [0]) = (1, .halted, none) := by decide
/-- V-DEC-14. -/
theorem test_halt_at_the_top :
    outcome { start [] with pc := 32767 } = (32768, .halted, none) := by decide
/-- V-MOV-2. -/
theorem test_set :
    (after { start [1, 32775, 32769] with regs := { r1 := 55 } }).regs = { r1 := 55, r7 := 55 } := by decide
/-- V-DEC-16. -/
theorem test_set_past_the_top :
    outcome { mem := [(32766, 1), (32767, 32768)], pc := 32766, mode := .running }
      = (32766, .halted, some ⟨.outOfBounds, 32766, some 32768⟩) := by decide
/-- V-MOV-7, with the top of the stack first. -/
theorem test_push :
    (after { start [2, 32771] with regs := { r3 := 321 }, stack := [1] }).stack = [321, 1] := by decide
/-- V-DEC-12. -/
theorem test_push_bad_operand :
    outcome (start [2, 32776]) = (0, .halted, some ⟨.invalidOperand, 0, some 32776⟩) := by decide
/-- V-MOV-10, with the top of the stack first. -/
theorem test_pop :
    (after { start [3, 32768] with stack := [2, 1] }).regs.r0 = 2 ∧
    (after { start [3, 32768] with stack := [2, 1] }).stack = [1] := by decide
/-- V-MOV-9, V-MOV-12. -/
theorem test_pop_faults :
    outcome (start [3, 32768]) = (0, .halted, some ⟨.stackUnderflow, 0, none⟩) ∧
    outcome { start [3, 32768] with stack := [32768] }
      = (0, .halted, some ⟨.valueOutOfRange, 0, some 32768⟩) := by decide
/-- V-CMP-3, V-CMP-2. -/
theorem test_eq :
    (after { start [4, 32768, 32768, 32768] with regs := { r0 := 9 } }).regs.r0 = 1 ∧
    (after { start [4, 32768, 32769, 8] with regs := { r0 := 5, r1 := 7 } }).regs.r0 = 0 := by decide
/-- V-CMP-7, V-CMP-5. -/
theorem test_gt :
    (after (start [5, 32768, 32767, 0])).regs.r0 = 1 ∧ (after (start [5, 32768, 5, 5])).regs.r0 = 0 := by decide
/-- V-CTL-2. -/
theorem test_jmp : (after { start [6, 32769] with regs := { r1 := 77 } }).pc = 77 := by decide
/-- V-CTL-7, V-CTL-4. -/
theorem test_jt : (after (start [7, 32767, 9])).pc = 9 ∧ (after (start [7, 32768, 6])).pc = 3 := by decide
/-- V-DEC-21. -/
theorem test_jt_bad_target :
    outcome (start [7, 0, 40000]) = (0, .halted, some ⟨.invalidOperand, 0, some 40000⟩) := by decide
/-- V-CTL-5, V-CTL-6. -/
theorem test_jf :
    (after (start [8, 32768, 50])).pc = 50 ∧ (after { start [8, 32768, 50] with regs := { r0 := 5 } }).pc = 3 := by decide
/-- V-ALU-1, V-ALU-4. -/
theorem test_add :
    (after (start [9, 32768, 32767, 1])).regs.r0 = 0 ∧
    (after { start [9, 32768, 32768, 32768] with regs := { r0 := 20000 } }).regs.r0 = 7232 := by decide
/-- V-DEC-18: the last instruction that fits, and the fault at the fetch after it. -/
theorem test_add_at_the_top :
    let s : State := { mem := [(32764, 9), (32765, 32768), (32766, 1), (32767, 2)], pc := 32764, mode := .running }
    (after s).regs.r0 = 3 ∧ (after s).pc = 32768 ∧
      outcome (after s) = (32768, .halted, some ⟨.outOfBounds, 32768, some 32768⟩) := by decide
/-- V-ALU-6, V-ALU-7. -/
theorem test_mult :
    (after (start [10, 32768, 32767, 32767])).regs.r0 = 1 ∧
    (after { start [10, 32768, 32769, 200] with regs := { r1 := 300 } }).regs.r0 = 27232 := by decide
/-- V-ALU-11, V-ALU-12. -/
theorem test_mod :
    (after (start [11, 32768, 17, 5])).regs.r0 = 2 ∧ (after (start [11, 32768, 3, 7])).regs.r0 = 3 := by decide
/-- V-ALU-16, V-DEC-20. -/
theorem test_mod_faults :
    outcome (start [11, 32768, 5, 32769]) = (0, .halted, some ⟨.divisionByZero, 0, none⟩) ∧
    outcome (start [11, 7, 1, 0]) = (0, .halted, some ⟨.invalidOperand, 0, some 7⟩) := by decide
/-- V-ALU-17, V-ALU-19. -/
theorem test_and :
    (after (start [12, 32768, 12, 10])).regs.r0 = 8 ∧ (after (start [12, 32768, 21845, 10922])).regs.r0 = 0 := by decide
/-- V-ALU-18, V-ALU-19. -/
theorem test_or :
    (after (start [13, 32768, 12, 10])).regs.r0 = 14 ∧
    (after (start [13, 32768, 21845, 10922])).regs.r0 = 32767 := by decide
/-- V-ALU-20. -/
theorem test_not :
    (after (start [14, 32768, 21845])).regs.r0 = 10922 ∧ (after (start [14, 32768, 1])).regs.r0 = 32766 := by decide
/-- V-MEM-3. -/
theorem test_rmem : (after (start [15, 32768, 0])).regs.r0 = 15 := by decide
/-- V-MEM-4. -/
theorem test_rmem_non_word :
    outcome (start [15, 32768, 1]) = (0, .halted, some ⟨.valueOutOfRange, 0, some 32768⟩) := by decide
/-- V-MEM-9. -/
theorem test_wmem : Memory.read (after (start [16, 32767, 32767])).mem 32767 = 32767 := by decide
/-- V-MEM-8: the Cell written at the next address is the one fetched next, and 21 is `noop`. -/
theorem test_wmem_next : outcome (after (start [16, 3, 21, 22])) = (4, .running, none) := by decide
/-- V-CTL-9. -/
theorem test_call :
    (after { start [17, 32771] with regs := { r3 := 1234 } }).stack = [2] ∧
    (after { start [17, 32771] with regs := { r3 := 1234 } }).pc = 1234 := by decide
/-- V-CTL-13: the return address 32768 is pushed whole. -/
theorem test_call_at_the_top :
    (after { mem := [(32766, 17), (32767, 100)], pc := 32766, mode := .running }).stack = [32768] := by decide
/-- V-CTL-11, with the top of the stack first. -/
theorem test_ret :
    (after { start [18] with stack := [9, 7] }).pc = 9 ∧ (after { start [18] with stack := [9, 7] }).stack = [7] := by
  decide
/-- V-CTL-12. -/
theorem test_ret_underflow : outcome (start [18]) = (0, .halted, some ⟨.stackUnderflow, 0, none⟩) := by decide
/-- V-SYS-4, after an earlier output. -/
theorem test_out : (after { start [19, 32767] with output := [65] }).output = [65, 32767] := by decide
/-- V-SYS-5. -/
theorem test_in :
    (after { start [20, 32769] with input := [10, 11] }).regs.r1 = 10 ∧
    (after { start [20, 32769] with input := [10, 11] }).input = [11] := by decide
/-- V-SYS-6, V-SYS-7. -/
theorem test_in_waits :
    outcome (start [20, 32769]) = (0, .running, none) ∧
    outcome (start [20, 1]) = (0, .halted, some ⟨.invalidOperand, 0, some 1⟩) := by decide
/-- V-SYS-2. -/
theorem test_noop : after (start [21]) = { start [21] with pc := 1 } := by decide

/-! ### Loader and host -/

/-- V-LD-2, V-LD-4. -/
theorem test_load :
    (changed State.reset (loadImage [0x34, 0x12] State.reset)).1.mem = [(0, 0x1234)] ∧
    (changed State.reset (loadImage [1, 0, 0, 0x80, 4] State.reset)).2 = .refused .oddLength := by decide

/-- V-LD-6. -/
theorem test_load_too_large :
    perform (.loadImage (List.replicate 65538 0)) .reset = (.reset, .refused .tooLarge) := by
  simp only [perform, loadImage, List.length_replicate]
  rfl

/-- A program comes to run through the host: load, then `continue()`, then `push 9` (P2). -/
theorem test_load_and_run :
    let s := (State.reset.arrive (.command (.loadImage [2, 0, 9, 0, 0, 0]))).arrive (.command .resume)
    (after s).mode = .stopped ∧ (after (after s)).mode = .running ∧ (after (after (after s))).stack = [9] := by decide

/-- R29, last paragraph: a load of either kind leaves the output stream empty. -/
theorem test_load_empties_output :
    ({ State.reset with output := [65] }.loaded [(0, 21)] {} [7] 3).output = [] := by decide

/-- R153: inspection answers the Cell, with no change, or `OutOfBounds`. -/
theorem test_inspect :
    perform (.inspectMemory 32767) faulted = (faulted, .cell 65535) ∧
    perform (.inspectMemory 32768) faulted = (faulted, .refused (.outOfBounds 32768)) := by decide

/-- H1: a breakpoint stops before the instruction, once; `continue()` then runs it. -/
theorem test_breakpoint :
    let s := setBreakpoint 0 (start [2, 9])
    (after s).mode = .stopped ∧ (after s).stack = [] ∧ (after (after s).resume).stack = [9] := by decide

/-- H2, H3: a watch stops on a change, with old and new value, and not on a write of the same value. -/
theorem test_watch :
    (after (setWatch .r1 (start [1, 32769, 1]))).host.report = some (.watch .r1 0 1) ∧
    (after (setWatch .r1 (start [1, 32769, 0]))).mode = .running := by decide

/-- P8: after `DivisionByZero` the host corrects the divisor and `continue()` re-executes the `mod`. -/
theorem test_correct_and_resume :
    let s := after { start [11, 32769, 32768, 32770] with regs := { r0 := 7 } }
    s.mode = .halted ∧ (after (perform (.writeRegister 2 4) s).1.resume).regs.r1 = 3 := by decide

/-- A waiting `in` emits its trace line once, and takes the Word that arrives. -/
theorem test_trace_of_a_wait :
    let s := after (after (toggleTrace (start [20, 32769])))
    s.host.observer = [⟨0, .inp .r1, []⟩] ∧ (after (s.arrive (.word 7))).host.observer = [⟨0, .inp .r1, []⟩] ∧
      (after (s.arrive (.word 7))).regs.r1 = 7 := by decide

/-- A placed instruction is the one the next step runs, from reset. -/
theorem test_placed_word : (after (State.reset.withFetchWord 32 (2 + 9 * 65536))).stack = [9] := by decide

/-! ### Witnesses: the hypotheses of the statements can be met -/

/-- A codec exists: `pc`, the registers, memory and the stack, two bytes each, low byte first. -/
def cellBytes (cs : List Cell) : List Byte := cs.flatMap fun c : Cell => [c.setWidth 8, (c >>> 8).setWidth 8]

theorem imageCells_cellBytes (cs : List Cell) : imageCells (cellBytes cs) = cs := by
  induction cs with
  | nil => rfl
  | cons c cs ih =>
    have h : BitVec.ofNat 16 ((c.setWidth 8 : Byte).toNat + 256 * ((c >>> 8).setWidth 8 : Byte).toNat) = c := by
      apply BitVec.eq_of_toNat_eq
      have := c.isLt
      simp only [BitVec.toNat_ofNat, BitVec.toNat_setWidth, BitVec.toNat_ushiftRight, Nat.shiftRight_eq_div_pow]
      omega
    simp only [cellBytes, List.flatMap_cons, List.cons_append, List.nil_append, imageCells, h] at ih ⊢
    rw [ih]

/-- The Snapshot that the Cells of `sampleCodec` stand for. -/
def cellsSnapshot (cs : List Cell) : Snapshot :=
  { pc := cs.headD 0, registers := (cs.drop 1).take 8, memory := (cs.drop 9).take 32768, stack := cs.drop 32777 }

theorem valid_lengths {n : Snapshot} (h : n.valid = true) : n.memory.length = 32768 ∧ n.registers.length = 8 := by
  simp only [Snapshot.valid, Bool.and_eq_true, beq_iff_eq] at h
  exact ⟨h.1.1.1.1, h.1.1.1.2⟩

def sampleCodec : SnapshotCodec Snapshot.valid where
  encode n := cellBytes (n.pc :: (n.registers ++ (n.memory ++ n.stack)))
  decode b := if (cellsSnapshot (imageCells b)).valid then some (cellsSnapshot (imageCells b)) else none
  roundTrip n h := by
    obtain ⟨h1, h2⟩ := valid_lengths h
    have e : cellsSnapshot (n.pc :: (n.registers ++ (n.memory ++ n.stack))) = n := by
      have d1 : (n.registers ++ (n.memory ++ n.stack)).drop 8 = n.memory ++ n.stack := List.drop_left' h2
      have d2 : (n.registers ++ (n.memory ++ n.stack)).drop 32776 = n.stack := by
        rw [show 32776 = 8 + 32768 from rfl, ← List.drop_drop, d1]; exact List.drop_left' h1
      simp only [cellsSnapshot, List.headD_cons, List.drop_succ_cons, List.drop_zero, d1, d2, List.take_left' h1,
        List.take_left' h2]
    simp only [imageCells_cellBytes, e, h, if_true]
  refusesInvalid b n h := by
    split at h
    · cases h; assumption
    · cases h

theorem test_witness_inv : faulted.Inv :=
  ⟨by decide, by simp [faulted], rfl, fun f h => by cases h; exact ⟨rfl, rfl⟩, fun h => absurd rfl h, fun a h => (by cases h),
    by decide, by decide, by decide, by decide⟩

/-- A running core with a watch and an operation issued, that meets the invariant and is `ready`. -/
def watched : State :=
  { start [1, 32769, 1] with host := { watches := [⟨.r0, true⟩, ⟨.r1, true⟩], trace := true, script := [.resume] } }

theorem test_witness_inv_ready : watched.Inv ∧ watched.ready :=
  ⟨⟨by decide, by simp [watched, start], rfl, fun f h => (by cases h), fun h => absurd rfl h, fun a h => (by cases h),
    by decide, by decide, by decide, by decide⟩, rfl, rfl, rfl⟩

/-- `DecodedCellsAreTheEncoding`, `OpcodeCellAloneTellsTheLength` (both clauses at their boundary). -/
theorem test_witness_decode :
    (21 : Cell).toNat = 21 ∧ decode [21, 5] = .ok (.noop, [5]) ∧ 21 < (22 : Cell).toNat := ⟨rfl, rfl, by decide⟩

/-- `ValueOperandResolution`, `DestinationOperandValidation`: the boundary Cells of each clause. -/
theorem test_witness_operand_ranges :
    (32767 : Cell).toNat < 32768 ∧ 32768 ≤ (32768 : Cell).toNat ∧ (32775 : Cell).toNat ≤ 32775 ∧
    32775 < (32776 : Cell).toNat := by decide

/-- `StepRunsTheDecodedInstruction`, `DecodePhaseReportsTheFirstFailingCheck` (no failing check). -/
theorem test_witness_step :
    (start [2, 9]).quiet ∧ (start [2, 9]).fetch = .ok (.push (.lit 9), [0, 0]) ∧
    (Instr.push (.lit 9)).waits (start [2, 9]) = false ∧ (start [2, 9]).decodeFault = none :=
  ⟨⟨⟨rfl, rfl, rfl⟩, rfl, rfl, rfl, rfl⟩, rfl, rfl, by decide⟩

/-- `InstructionAtPcRuns`, at the highest address where a two-Cell instruction fits. -/
theorem test_witness_instruction_at_pc :
    let s : State := { mem := [(32766, 2), (32767, 9)], pc := 32766, mode := .running }
    let i : Instr := .push (.lit 9)
    s.quiet ∧ i.waits s = false ∧ i.fitsAt s.pc.toNat = true ∧
      ∀ (k : Nat) (c : Cell), (encode i)[k]? = some c → Memory.read s.mem (s.pc.toNat + k) = c := by
  refine ⟨⟨⟨rfl, rfl, rfl⟩, rfl, rfl, rfl, rfl⟩, rfl, rfl, fun k c h => ?_⟩
  match k with
  | 0 => cases h; rfl
  | 1 => cases h; rfl
  | _ + 2 => cases h

/-- `DecodePhaseReportsTheFirstFailingCheck`: each check fails somewhere (V-DEC-13, V-DEC-9, V-DEC-19, V-DEC-17). -/
theorem test_witness_decode_faults :
    ({ start [] with pc := 32768 } : State).decodeFault = some ⟨.outOfBounds, some 32768⟩ ∧
    (start [22]).decodeFault = some ⟨.invalidOpcode, some 22⟩ ∧
    ({ mem := [(32766, 1), (32767, 3)], pc := 32766, mode := .running } : State).decodeFault
      = some ⟨.invalidOperand, some 3⟩ ∧
    ({ mem := [(32765, 9), (32766, 32768), (32767, 1)], pc := 32765, mode := .running } : State).decodeFault
      = some ⟨.outOfBounds, some 32768⟩ ∧ (start [22]).ready := ⟨by decide, by decide, by decide, by decide, rfl, rfl, rfl⟩

/-- `FaultLeavesTheMachineStateUntouched`, `ContinueAfterAFaultReExecutes`. -/
theorem test_witness_fault : ∃ s t : State, s.ready ∧ s.fault = none ∧ step s = .next t ∧
    t.fault = some ⟨.stackUnderflow, 0, none⟩ ∧ t.host.hasBreakpoint t.pc = false ∧ t.host.cancel = false :=
  ⟨start [18], _, ⟨rfl, rfl, rfl⟩, rfl, rfl, rfl, rfl, rfl⟩

/-- `CoreThatIsNotRunningDoesNothing`, both modes. -/
theorem test_witness_idle : State.reset.mode ≠ .running ∧ State.reset.host.script = [] ∧
    (after (start [0])).mode ≠ .running ∧ (after (start [0])).host.script = [] := by decide

/-- `HostStateDoesNotInfluenceExecution`: two cores that differ in trace, watches and issued operations. -/
theorem test_witness_host_state : ∃ s s' t t' : State, s.ready ∧ s'.ready ∧ s.mem.wf = true ∧ s'.mem.wf = true ∧
    SameExceptHost s s' ∧ s.host ≠ s'.host ∧ step s = .next t ∧ step s' = .next t' :=
  ⟨start [1, 32769, 1], watched, _, _, ⟨rfl, rfl, rfl⟩, ⟨rfl, rfl, rfl⟩, rfl, rfl,
    ⟨⟨fun _ => rfl, rfl, fun _ => rfl, rfl⟩, rfl, rfl, rfl⟩, by decide, rfl, rfl⟩

/-- `StepKeepsTheInvariant`, `ArrivalKeepsTheInvariant` (its second clause), `WatchStopsExactlyOnAChange`. -/
theorem test_witness_step_inv : (∃ t, watched.Inv ∧ watched.ready ∧ step watched = .next t ∧ t.mode = .stopped) ∧
    (∃ t, faulted.Inv ∧ step faulted = .next t) ∧ (∀ c, Arrival.word 7 ≠ .direct c) :=
  ⟨⟨_, test_witness_inv_ready.1, test_witness_inv_ready.2, rfl, rfl⟩, ⟨_, test_witness_inv, rfl⟩, fun _ h => (by cases h)⟩

/-- `PopMovesTheTopToTheRegister`, `PopAndRetFaults` (each clause at its boundary), `RetPopsIntoPc`. -/
theorem test_witness_stack :
    (∃ s : State, s.stack = [32767, 5] ∧ (32767 : Cell).toNat ≤ 32767) ∧ (∃ s : State, s.stack = []) ∧
    (∃ s : State, s.stack = [32768] ∧ 32768 ≤ (32768 : Cell).toNat) :=
  ⟨⟨{ stack := [32767, 5] }, rfl, by decide⟩, ⟨{}, rfl⟩, ⟨{ stack := [32768] }, rfl, by decide⟩⟩

/-- `RetAfterCallReturns`: the stack has been used in between, and is back. -/
theorem test_witness_ret_after_call : ∃ s t u : State, exec (.call (.lit 5)) s = .next t ∧ u.stack = t.stack ∧ u ≠ t :=
  ⟨{ stack := [3] }, _, { stack := [2, 3], pc := 8 }, rfl, rfl, by decide⟩

/-- `AluResults`, `ModByZeroFaults`: a divisor from a register, not 0 and 0; and 32767, which subtracts 1. -/
theorem test_witness_divisor : ((Operand.lit 32767).val {}).toNat = 32768 - 1 ∧ 0 < 1 ∧ 1 ≤ 32768 ∧
    ((Operand.reg .r1).val { regs := { r1 := 1 } }).toNat ≠ 0 ∧ ((Operand.reg .r1).val {}).toNat = 0 := by decide

/-- `MemoryAccessPrimitives`: both sides of the bound, and the last address whose number is a Cell. -/
theorem test_witness_memory : Memory.wf [(0, 1), (32767, 65535)] = true ∧ 32767 < 32768 ∧ 32768 ≤ 65535 ∧ 65535 < 65536 := by
  decide

/-- `RmemReadsTheCell`, `RmemOfNonWordFaults`, `WmemWritesOneCell`: Cells 32767 and 32768. -/
theorem test_witness_rmem :
    (Memory.read [(8, 32767), (9, 32768)] ((Operand.lit 8).val {}).toNat).toNat ≤ 32767 ∧
    32768 ≤ (Memory.read [(8, 32767), (9, 32768)] ((Operand.reg .r0).val { regs := { r0 := 9 } }).toNat).toNat ∧
    Memory.wf [(8, 32767), (9, 32768)] = true := by decide

/-- `WmemAtItsOwnNextIsFetched`. -/
theorem test_witness_wmem_next : ∃ s t : State, s.mem.wf = true ∧ exec (.wmem (.lit 3) (.lit 21)) s = .next t ∧
    t.pc.toNat = ((Operand.lit 3).val s).toNat := ⟨start [16, 3, 21, 22], _, rfl, rfl, rfl⟩

/-- `InTakesTheNextWord`, `InWaitsForInput`. -/
theorem test_witness_in : (∃ s : State, s.input = [10, 11]) ∧
    (∃ s : State, s.ready ∧ s.fetch = .ok (.inp .r1, [0, 0]) ∧ s.input = []) :=
  ⟨⟨{ input := [10, 11] }, rfl⟩, ⟨start [20, 32769], ⟨rfl, rfl, rfl⟩, rfl, rfl⟩⟩

/-- `OnlyTheDestinationRegisterIsWritten`, `OnlyFourInstructionsReachTheStack`, `OnlyWmemWritesMemory`,
`OnlyOutAndInTouchTheStreams`, `OnlyHaltAndFaultsChangeTheMode`, `HowEachInstructionChangesPc` (completion). -/
theorem test_witness_exec : ∃ t, exec (.add .r0 (.lit 1) (.lit 2)) State.reset = .next t ∧ t.fault = none ∧
    State.reset.fault = none ∧ (Instr.add .r0 (.lit 1) (.lit 2)).dest ≠ some .r1 ∧
    (Instr.add .r0 (.lit 1) (.lit 2)).op ∉ [Op.push, .pop, .call, .ret] ∧
    (Instr.add .r0 (.lit 1) (.lit 2)).op ≠ .wmem ∧ (Instr.add .r0 (.lit 1) (.lit 2)).op ≠ .out ∧
    (Instr.add .r0 (.lit 1) (.lit 2)).op ≠ .inp ∧ (Instr.add .r0 (.lit 1) (.lit 2)).waits State.reset = false :=
  ⟨_, rfl, rfl, rfl, by decide, by decide, by decide, by decide, by decide, rfl⟩

/-- `OnlyTheDestinationRegisterIsWritten` (no destination), `HowEachInstructionChangesPc` (a fault, a wait). -/
theorem test_witness_exec_fault : (∃ t, exec .ret State.reset = .next t ∧ t.fault ≠ none) ∧
    (∃ t, exec (.inp .r0) State.reset = .next t ∧ (Instr.inp .r0).waits State.reset = true) ∧
    Instr.ret.op ∉ [Op.set, .pop, .eq, .gt, .add, .mult, .mod, .and, .or, .not, .rmem, .inp] :=
  ⟨⟨_, rfl, by decide⟩, ⟨_, rfl, rfl⟩, by decide⟩

/-- `LoadOfAnImageResets`, `MalformedImagesAreRefused`: the longest image, and the shortest of each malformed kind. -/
theorem test_witness_image_lengths :
    (List.replicate 65536 (0 : Byte)).length % 2 = 0 ∧ (List.replicate 65536 (0 : Byte)).length ≤ 65536 ∧
    (List.replicate 65538 (0 : Byte)).length % 2 = 0 ∧ 65536 < (List.replicate 65538 (0 : Byte)).length ∧
    [(0 : Byte)].length % 2 = 1 := by
  simp only [List.length_replicate]; decide

/-- `ImageWordsGoToLowAddresses`. -/
theorem test_witness_image : ∃ t, loadImage [0x34, 0x12] faulted = .ok t ∧
    ([0x34, 0x12] : List Byte)[2 * 0]? = some 0x34 ∧ ([0x34, 0x12] : List Byte)[2 * 0 + 1]? = some 0x12 ∧
    ([0x34, 0x12] : List Byte).length ≤ 2 * 1 := ⟨_, rfl, rfl, rfl, by decide⟩

/-- `SaveThenLoadReproduces`: the codec exists, and a state that is not the reset state is saved. -/
theorem test_witness_save : Nonempty (SnapshotCodec Snapshot.valid) ∧
    ∃ s : State, s.Inv ∧ s.mode = .stopped ∧ s.stack = [32768] ∧ s.pc = 32768 :=
  ⟨⟨sampleCodec⟩, { State.reset with stack := [32768], pc := 32768 },
    ⟨by decide, by simp, rfl, fun f h => (by cases h), fun h => absurd rfl h, fun a h => (by cases h), by decide, by decide,
      by decide, by decide⟩, rfl, rfl, rfl⟩

/-- `SnapshotsAreCheckedByTheInvariant`: a good Snapshot at the boundary, and one value past each boundary. -/
theorem test_witness_snapshot :
    (∃ n : Snapshot, n.memory.length = 32768 ∧ n.registers.length = 8 ∧ (∀ c ∈ n.registers, c.toNat ≤ 32767) ∧
      (∀ c ∈ n.stack, c.toNat ≤ 32768) ∧ n.pc.toNat ≤ 32768) ∧
    32767 < (32768 : Cell).toNat ∧ 32768 < (32769 : Cell).toNat :=
  ⟨⟨⟨List.replicate 32768 65535, List.replicate 8 32767, [32768], 32768⟩, List.length_replicate, rfl, by simp, by simp,
    by decide⟩, by decide, by decide⟩

/-- `OnlyALoadLeavesACleanHalt`: an issued and a direct operation that are no `load`. -/
theorem test_witness_clean_halt : ∃ s : State, s.cleanHalt ∧ s.host.script = [.resume] ∧
    (∀ b, Command.resume ≠ .loadImage b) ∧ (∀ n, Command.resume ≠ .loadSnapshot n) :=
  ⟨{ mode := .halted, host := { script := [.resume] } }, ⟨rfl, rfl⟩, rfl, fun _ h => (by cases h), fun _ h => (by cases h)⟩

/-- `HostWritesChangeOneRegisterOrCell`, at the top of each range and in both modes; the inspected addresses are on both
sides of the bound. -/
theorem test_witness_host_writes : faulted.mem.wf = true ∧ faulted.mode = .halted ∧ faulted.fault ≠ none ∧
    State.reset.mode = .stopped ∧ 32767 < 32768 ∧ 65535 < 65536 ∧ 32768 ≤ 32768 := by decide

/-- `OutOfRangeHostWritesChangeNothing`: each disjunct. -/
theorem test_witness_host_refusals : (start []).mode = .running ∧ (∃ s : State, s.cleanHalt) ∧ 7 < 8 ∧ 32767 < 32768 ∧
    65535 < 65536 := ⟨rfl, ⟨{ mode := .halted }, rfl, rfl⟩, by decide, by decide, by decide⟩

/-- `HostOperationsWhileRunning`: an operation that is no `load`, an image, a Snapshot. -/
theorem test_witness_running_host : (start []).mode = .running ∧ (start []).host.inStep = false ∧
    (∀ b, Command.toggleTrace ≠ .loadImage b) ∧ (∀ n, Command.toggleTrace ≠ .loadSnapshot n) ∧
    ([] : List Byte).length % 2 = 0 ∧ ∃ n : Snapshot, n.valid = true :=
  ⟨rfl, rfl, fun _ h => (by cases h), fun _ h => (by cases h), rfl,
    ⟨List.replicate 32768 0, List.replicate 8 0, [], 0⟩, by
      simp only [Snapshot.valid, List.length_replicate]; decide⟩

/-- `BreakpointStopsOncePerVisit`: the `continue()` after the stop runs a `jmp` to the breakpoint again. -/
theorem test_witness_breakpoint : ∃ s v : State, s.mode = .running ∧ s.cancelDue = false ∧ s.breakpointDue = true ∧
    step (s.stopWith (.breakpoint s.pc)).resume = .next v ∧ v.mode = .running ∧ v.pc = s.pc :=
  ⟨setBreakpoint 0 (start [6, 0]), _, rfl, rfl, rfl, rfl, rfl, rfl⟩

/-- `BreakpointStopsOncePerVisit`: a `Stopped` core; a completed instruction that leads to a breakpoint at another address. -/
theorem test_witness_breakpoint_elsewhere : State.reset.mode = .stopped ∧ ∃ s t : State, s.ready ∧ step s = .next t ∧
    t.mode = .running ∧ t.host.inStep = false ∧ t.host.hasBreakpoint t.pc = true ∧ t.pc ≠ s.pc :=
  ⟨rfl, setBreakpoint 9 (start [6, 9]), _, ⟨rfl, rfl, rfl⟩, rfl, rfl, rfl, rfl, by decide⟩

/-- `BreakpointFiresAfterAWatchStop`. -/
theorem test_witness_watch_then_breakpoint : ∃ s t : State, s.ready ∧ step s = .next t ∧ t.mode = .stopped ∧
    t.host.hasBreakpoint t.pc = true :=
  ⟨setBreakpoint 3 (setWatch .r1 (start [1, 32769, 1])), _, ⟨rfl, rfl, rfl⟩, rfl, rfl, rfl⟩

/-- `TraceEmitsOneLinePerInstruction`: trace on, and trace off. -/
theorem test_witness_trace_off : ∃ t, (start [21]).ready ∧ (start [21]).host.trace = false ∧ step (start [21]) = .next t :=
  ⟨_, ⟨rfl, rfl, rfl⟩, rfl, rfl⟩

theorem test_witness_trace : ∃ t, watched.ready ∧ watched.host.trace = true ∧
    watched.fetch = .ok (.set .r1 (.lit 1), [0]) ∧ step watched = .next t := ⟨_, ⟨rfl, rfl, rfl⟩, rfl, rfl, rfl⟩

/-- `CancellationStopsBetweenInstructions`. -/
theorem test_witness_cancel : ∃ s : State, s.mode = .running ∧ s.host.inStep = false ∧ s.host.cancel = true :=
  ⟨(start [21]).arrive (.cancel true), rfl, rfl, rfl⟩

end Sys2Proof.Tests
end

section
/-! PROOFS, family 10_state: what an instruction does to the state, and that every step and arrival keeps the invariant. -/

namespace Sys2Proof.Machine

/-! ### What a completed instruction leaves -/

/-- Instruction `i`, begun in `s`, completes with `t`: its effect by kind. An instruction that neither waits nor faults does
one of these (`exec_cases`). -/
inductive Completes (s : State) : Instr → State → Prop
  /-- `set`, the comparisons, the arithmetic and `rmem` write their destination and nothing else. -/
  | writes {i : Instr} {d : Reg} (v : Word) (hd : i.dest = some d) (hop : i.op ≠ .pop ∧ i.op ≠ .inp) :
      Completes s i (retire s d v i.op.arity)
  | pop {d : Reg} {c : Cell} {rest : List Cell} (hs : s.stack = c :: rest) :
      Completes s (.pop d) (retire { s with stack := rest } d (low15 c) 1)
  | inp {d : Reg} {v : Word} {rest : List Word} (hs : s.input = v :: rest) :
      Completes s (.inp d) (retire { s with input := rest } d v 1)
  | push (a : Operand) : Completes s (.push a) ((s.push (zext16 (a.val s))).setPc (s.next 1))
  | wmem (a b : Operand) : Completes s (.wmem a b)
      ((s.setMem (Memory.write s.mem (a.val s).toNat (zext16 (b.val s)))).setPc (s.next 2))
  | out (a : Operand) : Completes s (.out a) ((s.emit (a.val s)).setPc (s.next 1))
  | halt : Completes s .halt ((s.setPc (s.next 0)).setMode .halted)
  | noop : Completes s .noop (s.setPc (s.next 0))
  | jmp (a : Operand) : Completes s (.jmp a) (s.setPc (zext16 (a.val s)))
  | jt (a b : Operand) : Completes s (.jt a b)
      (s.setPc (if truthy (a.val s) then zext16 (b.val s) else s.next 2))
  | jf (a b : Operand) : Completes s (.jf a b)
      (s.setPc (if truthy (a.val s) then s.next 2 else zext16 (b.val s)))
  | call (a : Operand) : Completes s (.call a) ((s.push (s.next 1)).setPc (zext16 (a.val s)))
  | ret {c : Cell} {rest : List Cell} (hs : s.stack = c :: rest) :
      Completes s .ret ({ s with stack := rest }.setPc c)

/-- Everything an instruction can do: take a fault, wait, or complete (R63). -/
theorem exec_cases {i : Instr} {s t : State} (h : exec i s = .next t) :
    (∃ r, t = s.takeFault r) ∨ (i.waits s = true ∧ t = s) ∨ Completes s i t := by
  cases i with
  | pop d =>
    change execPop d s = _ at h
    rcases execPop_cases d s with ⟨_, e⟩ | ⟨c, rest, hs, ⟨_, e⟩ | ⟨_, e⟩⟩ <;> cases e.symm.trans h
    · exact .inl ⟨_, rfl⟩
    · exact .inl ⟨_, rfl⟩
    · exact .inr (.inr (.pop hs))
  | ret =>
    change execRet s = _ at h
    rcases execRet_cases s with ⟨_, e⟩ | ⟨c, rest, hs, e⟩ <;> cases e.symm.trans h
    · exact .inl ⟨_, rfl⟩
    · exact .inr (.inr (.ret hs))
  | mod d b c =>
    change execMod d b c s = _ at h
    rcases execMod_cases d b c s with ⟨_, e⟩ | ⟨_, e⟩ <;> cases e.symm.trans h
    · exact .inl ⟨_, rfl⟩
    · exact .inr (.inr (.writes _ rfl (by simp [Instr.op])))
  | rmem d b =>
    change execRmem d b s = _ at h
    rcases execRmem_cases d b s with ⟨_, e⟩ | ⟨_, e⟩ <;> cases e.symm.trans h
    · exact .inl ⟨_, rfl⟩
    · exact .inr (.inr (.writes _ rfl (by simp [Instr.op])))
  | inp d =>
    change execIn d s = _ at h
    rcases execIn_cases d s with ⟨hs, e⟩ | ⟨v, rest, hs, e⟩ <;> cases e.symm.trans h
    · exact .inr (.inl ⟨by simp [Instr.waits, hs], rfl⟩)
    · exact .inr (.inr (.inp hs))
  | wmem a b => cases (execWmem_eq a b s).symm.trans h; exact .inr (.inr (.wmem a b))
  | push a => cases h; exact .inr (.inr (.push a))
  | out a => cases h; exact .inr (.inr (.out a))
  | halt => cases h; exact .inr (.inr .halt)
  | noop => cases h; exact .inr (.inr .noop)
  | jmp a => cases h; exact .inr (.inr (.jmp a))
  | jt a b => cases h; rw [State.jump, ← apply_ite s.setPc]; exact .inr (.inr (.jt a b))
  | jf a b => cases h; rw [State.jump, ← apply_ite s.setPc]; exact .inr (.inr (.jf a b))
  | call a => cases h; exact .inr (.inr (.call a))
  | _ => cases h; exact .inr (.inr (.writes _ rfl (by simp [Instr.op])))

/-! ### What a completed instruction leaves alone -/

/-- Only `in` ever waits (R149). -/
theorem waits_eq_false {i : Instr} (h : i.op ≠ .inp) (s : State) : i.waits s = false := by
  cases i with
  | inp d => exact absurd rfl h
  | _ => rfl

section
variable {s t : State} {i : Instr}

/-- A completed instruction was no waiting `in` (R123). -/
theorem Completes.not_waits (h : Completes s i t) : i.waits s = false := by
  cases h with
  | writes v _ hop => exact waits_eq_false hop.2 s
  | inp hs => simp [Instr.waits, hs]
  | _ => rfl

theorem Completes.host (h : Completes s i t) : t.host = s.host := by cases h <;> rfl

/-- Completing leaves the fault record as it is, a `halt` too (R120). -/
theorem Completes.fault (h : Completes s i t) : t.fault = s.fault := by cases h <;> rfl

/-- Of the instructions that complete, `halt` alone changes the mode (R19). -/
theorem Completes.mode (h : Completes s i t) : t.mode = s.mode ∨ i = .halt := by
  cases h with
  | halt => exact .inr rfl
  | _ => exact .inl rfl

theorem Completes.reg (h : Completes s i t) {r : Reg} (hr : i.dest ≠ some r) : t.reg r = s.reg r := by
  have ne {d : Reg} (hd : i.dest = some d) : r ≠ d := fun e => hr (e ▸ hd)
  cases h with
  | writes v hd _ => exact (retire_reg ..).trans (if_neg (ne hd))
  | pop hs => exact (retire_reg ..).trans (if_neg (ne rfl))
  | inp hs => exact (retire_reg ..).trans (if_neg (ne rfl))
  | _ => rfl

theorem Completes.stack (h : Completes s i t) (hi : i.op ∉ [Op.push, .pop, .call, .ret]) : t.stack = s.stack := by
  cases h with
  | pop | push | call | ret => simp [Instr.op] at hi
  | _ => rfl

theorem Completes.output (h : Completes s i t) (hi : i.op ≠ .out) : t.output = s.output := by
  cases h with
  | out => exact absurd rfl hi
  | _ => rfl

theorem Completes.input (h : Completes s i t) (hi : i.op ≠ .inp) : t.input = s.input := by
  cases h with
  | inp => exact absurd rfl hi
  | _ => rfl

end

/-- Fault entry takes the fault and does nothing else (R138). -/
theorem tookFault_takeFault (s : State) (r : Raise) : TookFault r s (s.takeFault r) :=
  ⟨rfl, rfl, ⟨fun _ => rfl, rfl, fun _ => rfl, rfl⟩, ⟨rfl, rfl⟩, rfl⟩

/-- A Word is a true condition exactly when it is not zero (R91, R92). -/
theorem truthy_iff {w : Word} : truthy w = true ↔ w ≠ 0 := by simp [truthy]

theorem next_eq (s : State) (n : Nat) : s.next n = s.pc + BitVec.ofNat 16 (1 + n) := rfl

/-- Only the twelve instructions of R14 name a destination. -/
theorem dest_eq_none {i : Instr}
    (h : i.op ∉ [Op.set, .pop, .eq, .gt, .add, .mult, .mod, .and, .or, .not, .rmem, .inp]) : i.dest = none := by
  cases i <;> simp [Instr.op, Instr.dest] at h ⊢

/-! ### The rules over all instructions -/

/-- No register but the destination changes, in any outcome (R14). -/
theorem exec_reg_of_ne_dest {i : Instr} {s t : State} (h : exec i s = .next t) {r : Reg} (hr : i.dest ≠ some r) :
    t.reg r = s.reg r := by
  rcases exec_cases h with ⟨_, rfl⟩ | ⟨_, rfl⟩ | hc
  · exact rfl
  · exact rfl
  · exact hc.reg hr

/-- Settles O38: without a destination operand no register can be it. -/
theorem onlyTheDestinationRegisterIsWritten : Obligations.OnlyTheDestinationRegisterIsWritten := fun _ _ _ h =>
  ⟨fun _ hr => exec_reg_of_ne_dest h hr, fun hop _ => exec_reg_of_ne_dest h (by simp [dest_eq_none hop])⟩

/-- Settles O39: a fault and a wait leave the stack, and so does every completion but those of the four. -/
theorem onlyFourInstructionsReachTheStack : Obligations.OnlyFourInstructionsReachTheStack := by
  intro i s t h hi
  rcases exec_cases h with ⟨_, rfl⟩ | ⟨_, rfl⟩ | hc
  · exact rfl
  · exact rfl
  · exact hc.stack hi

/-- Settles O41: a fault and a wait leave both streams; each stream has one completion that changes it. -/
theorem onlyOutAndInTouchTheStreams : Obligations.OnlyOutAndInTouchTheStreams := by
  intro i s t h
  rcases exec_cases h with ⟨_, rfl⟩ | ⟨_, rfl⟩ | hc
  · exact ⟨fun _ => rfl, fun _ => rfl⟩
  · exact ⟨fun _ => rfl, fun _ => rfl⟩
  · exact ⟨hc.output, hc.input⟩

/-- Settles O42, by the three outcomes of an instruction. -/
theorem onlyHaltAndFaultsChangeTheMode : Obligations.OnlyHaltAndFaultsChangeTheMode := by
  intro i s t h
  rcases exec_cases h with ⟨r, rfl⟩ | ⟨_, rfl⟩ | hc
  · exact ⟨rfl, .inr (.inr ⟨r, tookFault_takeFault s r⟩)⟩
  · exact ⟨rfl, .inl ⟨rfl, rfl⟩⟩
  · refine ⟨hc.host, ?_⟩
    rcases hc.mode with hm | hi
    · exact .inl ⟨hm, hc.fault⟩
    · exact .inr (.inl ⟨hi, hc.fault⟩)

/-- Settles O43: after a fault or a wait `pc` is untouched; a completion is followed by kind. -/
theorem howEachInstructionChangesPc : Obligations.HowEachInstructionChangesPc := by
  intro i s t hs h
  rcases exec_cases h with ⟨r, rfl⟩ | ⟨hw, rfl⟩ | hc
  · exact ⟨fun _ => rfl, fun hf => by simp at hf⟩
  · exact ⟨fun _ => rfl, fun _ hw' => by simp [hw] at hw'⟩
  · refine ⟨fun hfw => ?_, fun _ _ => ?_⟩
    · simp [hc.fault, hs, hc.not_waits] at hfw
    · cases hc with
      | writes v hd _ =>
        split
        iterate 5 · cases hd -- the jumps, `call` and `ret` have no destination
        rfl
      | jmp a => exact zext16_toNat _
      | jt a b => by_cases ha : a.val s = 0#15 <;> simp [truthy_iff, ha, next_eq]
      | jf a b => by_cases ha : a.val s = 0#15 <;> simp [truthy_iff, ha, next_eq]
      | call a => exact zext16_toNat _
      | ret hs => exact hs
      | _ => rfl

/-! ### Where an instruction that decodes stands -/

/-- What decodes are the operand Cells of the mnemonic at hand (R50, R54). -/
theorem decodeOperands_ok {o : Op} {cs rest : List Cell} {i : Instr} (h : decodeOperands o cs = .ok (i, rest)) :
    i.op = o ∧ cs = i.operandCells ++ rest := by
  cases o with
  | halt | ret | noop => cases h; exact ⟨rfl, rfl⟩
  | push | jmp | call | out => obtain ⟨a, rfl, rfl⟩ := formatV_ok h; exact ⟨rfl, rfl⟩
  | pop | inp => obtain ⟨a, rfl, rfl⟩ := formatD_ok h; exact ⟨rfl, rfl⟩
  | set | not | rmem => obtain ⟨a, b, rfl, rfl⟩ := formatDV_ok h; exact ⟨rfl, rfl⟩
  | jt | jf | wmem => obtain ⟨a, b, rfl, rfl⟩ := formatVV_ok h; exact ⟨rfl, rfl⟩
  | eq | gt | add | mult | mod | and | or => obtain ⟨a, b, c, rfl, rfl⟩ := formatDVV_ok h; exact ⟨rfl, rfl⟩

/-- Only the Cells of an instruction's own encoding decode to it. -/
theorem decode_ok {cs rest : List Cell} {i : Instr} (h : decode cs = .ok (i, rest)) : cs = encode i ++ rest := by
  cases cs with
  | nil => cases h
  | cons op cs =>
    rw [decode] at h
    split at h
    · cases h
    · rename_i o ho
      obtain ⟨rfl, rfl⟩ := decodeOperands_ok h
      simp [encode, op_ofNumber_some ho]

/-- No more Cells are fetched than there are left below 32768 (R32). -/
theorem fetchCells_length_le (m : Memory) : ∀ n a, (fetchCells m a n).length ≤ Config.memCells - a
  | 0, _ => Nat.zero_le _
  | n + 1, a => by
    rw [fetchCells]
    split
    · have := fetchCells_length_le m n (a + 1); simp only [List.length_cons]; omega
    · exact Nat.zero_le _

/-- An instruction that decodes at `pc` has all its Cells inside memory (R62). -/
theorem fetch_fits {s : State} {i : Instr} {rest : List Cell} (h : s.fetch = .ok (i, rest)) :
    s.pc.toNat + i.length ≤ Config.memCells := by
  obtain ⟨-, -, hlen⟩ := Laws.EncodedCells.holds i
  have hle := fetchCells_length_le s.mem Config.maxLength s.pc.toNat
  have hpos : 0 < i.length := by unfold Instr.length; omega
  rw [decode_ok h, List.length_append, hlen] at hle
  omega

/-- Where the instruction fits, the address after it is in the range of `pc` (R16, R63). -/
theorem next_toNat_le {s : State} {i : Instr} (h : s.pc.toNat + i.length ≤ Config.memCells) :
    (s.next i.op.arity).toNat ≤ Config.memCells := by
  change s.pc.toNat + (1 + i.op.arity) ≤ 32768 at h
  simp only [next_eq, BitVec.toNat_add, BitVec.toNat_ofNat, Config.memCells]
  omega

/-- A Word is an address, so it is in the range of `pc` and of stack entries (R93). -/
theorem zext16_le (w : Word) : (zext16 w).toNat ≤ Config.memCells := by
  rw [zext16_toNat]; exact Nat.le_of_lt w.isLt

/-! ### The invariant's clauses on the Machine State -/

section
variable {s t : State} {i : Instr}

theorem Completes.pcInRange (h : Completes s i t) (hs : s.Inv) (hfit : s.pc.toNat + i.length ≤ Config.memCells) :
    t.pc.toNat ≤ Config.memCells := by
  have hnext := next_toNat_le hfit
  cases h with
  | jmp a => exact zext16_le _
  | call a => exact zext16_le _
  | jt a b =>
    rw [setPc_pc]
    split
    · exact zext16_le _
    · exact hnext
  | jf a b =>
    rw [setPc_pc]
    split
    · exact hnext
    · exact zext16_le _
  | ret hst => exact hs.stackInRange _ (by simp [hst])
  | _ => exact hnext

theorem Completes.stackInRange (h : Completes s i t) (hs : s.Inv) (hfit : s.pc.toNat + i.length ≤ Config.memCells) :
    ∀ c ∈ t.stack, c.toNat ≤ Config.memCells := by
  have hstack := hs.stackInRange
  have hnext := next_toNat_le hfit
  cases h with
  | push a => exact List.forall_mem_cons.2 ⟨zext16_le _, hstack⟩
  | call a => exact List.forall_mem_cons.2 ⟨hnext, hstack⟩
  | pop hst | ret hst => rw [hst] at hstack; exact (List.forall_mem_cons.1 hstack).2
  | _ => exact hstack

theorem Completes.memCanonical (h : Completes s i t) (hs : s.Inv) : t.mem.wf = true := by
  cases h with
  | wmem a b => exact wfFrom_write _ (a.val s).isLt (Nat.zero_le _) hs.memCanonical
  | _ => exact hs.memCanonical

end

/-! ### The invariant across the parts of a step -/

section
variable {s t : State}

/-- A `Running` core has no fault recorded (R20). -/
theorem State.Inv.fault_of_running (h : s.Inv) (hm : s.mode = .running) : s.fault = none := by
  cases hf : s.fault with
  | none => rfl
  | some f =>
    obtain ⟨hhalted, -⟩ := h.faultHalted f hf
    cases hm.symm.trans hhalted

/-- A `Running` core has nothing to report (R154). -/
theorem State.Inv.report_of_running (h : s.Inv) (hm : s.mode = .running) : s.host.report = none := by
  cases hr : s.host.report with
  | none => rfl
  | some q =>
    have hstopped := h.reportStopped (by simp [hr])
    cases hm.symm.trans hstopped

/-- A completed instruction of a `Running` core keeps the invariant: the fault record and the report stay empty, the triggers
stay as they are. -/
theorem Completes.inv {i : Instr} (h : Completes s i t) (hs : s.Inv) (hm : s.mode = .running)
    (hfit : s.pc.toNat + i.length ≤ Config.memCells) : t.Inv where
  pcInRange := h.pcInRange hs hfit
  stackInRange := h.stackInRange hs hfit
  memCanonical := h.memCanonical hs
  faultHalted := by simp [h.fault, hs.fault_of_running hm]
  reportStopped := by simp [h.host, hs.report_of_running hm]
  reportBreakpoint := by simp [h.host, hs.report_of_running hm]
  breakpointsOnce := h.host ▸ hs.breakpointsOnce
  watchesOnce := h.host ▸ hs.watchesOnce
  breakpointsEnabled := h.host ▸ hs.breakpointsEnabled
  watchesEnabled := h.host ▸ hs.watchesEnabled

/-- Fault entry names the instruction at the unchanged `pc` (R137, R138). -/
theorem State.Inv.takeFault (hs : s.Inv) (hm : s.mode = .running) (r : Raise) : (s.takeFault r).Inv :=
  { hs with
    faultHalted := fun f hf => by cases hf; exact ⟨rfl, rfl⟩
    reportStopped := fun hr => absurd (hs.report_of_running hm) hr }

/-- A stop of a `Running` core keeps the invariant, when a breakpoint that it reports is the one at `pc` (R155). -/
theorem State.Inv.stopWith (hs : s.Inv) (hm : s.mode = .running) {q : StopReport}
    (hq : ∀ a, q = .breakpoint a → s.pc = a) : (s.stopWith q).Inv :=
  { hs with
    faultHalted := by simp [hs.fault_of_running hm]
    reportStopped := fun _ => rfl
    reportBreakpoint := fun a ha => hq a (Option.some.inj ha) }

theorem State.Inv.traced (hs : s.Inv) (i : Instr) : (s.traced i).Inv := by
  unfold State.traced
  split
  · exact { hs with }
  · exact hs

theorem State.Inv.endRound (hs : s.Inv) : s.endRound.Inv := { hs with }

/-- Whatever an instruction that fits does, the invariant holds after it. -/
theorem State.Inv.exec {i : Instr} (hs : s.Inv) (hm : s.mode = .running)
    (hfit : s.pc.toNat + i.length ≤ Config.memCells) (h : exec i s = .next t) : t.Inv := by
  rcases exec_cases h with ⟨r, rfl⟩ | ⟨_, rfl⟩ | hc
  · exact hs.takeFault hm r
  · exact hs
  · exact hc.inv hs hm hfit

/-- The end of a round keeps the invariant. -/
theorem State.Inv.settle (ht : t.Inv) (i : Instr) : (s.settle i t).Inv := by
  rcases settle_cases s i t with ⟨_, e⟩ | ⟨_, _, e⟩ | ⟨_, _, _, e⟩ | ⟨_, hm, w, _, e⟩ <;> rw [e]
  · exact { ht with }
  · exact ht
  · exact ht.endRound
  · exact ht.endRound.stopWith hm (by simp)

/-- An instruction cycle of a `Running` core keeps the invariant. -/
theorem State.Inv.cycle (hs : s.Inv) (hm : s.mode = .running) (h : cycle s = .next t) : t.Inv := by
  rw [Machine.cycle] at h
  split at h
  · cases h; exact hs.takeFault hm _
  · rename_i i rest hf
    obtain ⟨u, hu, -⟩ := exec_next_host i (s.traced i)
    rw [hu] at h; cases h
    exact ((hs.traced i).exec (by simpa using hm) (by simpa using fetch_fits hf) hu).settle i

/-- One round of the `continue()` loop keeps the invariant (R154). -/
theorem State.Inv.runRound (hs : s.Inv) (hm : s.mode = .running) (h : runRound s = .next t) : t.Inv := by
  rw [Machine.runRound] at h
  split at h
  · cases h; exact hs.stopWith hm (by simp)
  · split at h
    · cases h; exact hs.stopWith hm (by simp)
    · exact hs.cycle hm h

/-! ### The invariant across the host's operations -/

theorem imageCells_length : ∀ b : List Byte, (imageCells b).length = b.length / 2
  | [] => rfl
  | [_] => by simp [imageCells]
  | _ :: _ :: b => by simp only [imageCells, List.length_cons, imageCells_length b]; omega

theorem Snapshot.valid_iff (n : Snapshot) : n.valid = true ↔
    n.memory.length = 32768 ∧ n.registers.length = 8 ∧ (∀ c ∈ n.registers, c.toNat < 32768) ∧
      (∀ c ∈ n.stack, c.toNat ≤ 32768) ∧ n.pc.toNat ≤ 32768 := by
  simp [Snapshot.valid, and_assoc]

/-- A `load` keeps the invariant when what it puts into the Machine State is in range: it leaves no fault and no report. -/
theorem State.Inv.loaded (hs : s.Inv) {m : Memory} (x : RegFile) {st : List Cell} {p : Cell} (hm : m.wf = true)
    (hst : ∀ c ∈ st, c.toNat ≤ Config.memCells) (hp : p.toNat ≤ Config.memCells) : (s.loaded m x st p).Inv where
  pcInRange := hp
  stackInRange := hst
  memCanonical := hm
  faultHalted := by simp
  reportStopped := by simp
  reportBreakpoint := by simp [Debugger.afterLoad]
  breakpointsOnce := hs.breakpointsOnce.sublist (List.filter_sublist.map _)
  watchesOnce := hs.watchesOnce.sublist (List.filter_sublist.map _)
  breakpointsEnabled := fun b hb => hs.breakpointsEnabled b (List.mem_filter.1 hb).1
  watchesEnabled := fun w hw => hs.watchesEnabled w (List.mem_filter.1 hw).1

theorem State.Inv.loadImage (hs : s.Inv) {b : List Byte} (h : loadImage b s = .ok t) : t.Inv := by
  unfold Machine.loadImage at h
  split at h
  · cases h
  · split at h
    · cases h
    · rename_i hlen
      cases h
      have hcells : 0 + (imageCells b).length ≤ Config.memCells := by rw [imageCells_length]; omega
      exact hs.loaded {} (wfFrom_ofCells _ 0 hcells) (by simp) (by simp)

theorem State.Inv.loadSnapshot (hs : s.Inv) {n : Snapshot} (h : loadSnapshot n s = .ok t) : t.Inv := by
  unfold Machine.loadSnapshot at h
  split at h
  · rename_i hv
    cases h
    obtain ⟨hmem, -, -, hst, hp⟩ := n.valid_iff.1 hv
    exact hs.loaded _ (wfFrom_ofCells _ 0 (by simp [hmem])) hst hp
  · cases h

theorem State.Inv.writeRegister (hs : s.Inv) {r v : Nat} (h : writeRegister r v s = .ok t) : t.Inv := by
  unfold Machine.writeRegister at h
  split at h
  · cases h
  · split at h
    · cases h
    · split at h <;> cases h
      exact { hs with }

theorem State.Inv.writeMemory (hs : s.Inv) {a v : Nat} (h : writeMemory a v s = .ok t) : t.Inv := by
  unfold Machine.writeMemory at h
  split at h
  · cases h
  · split at h
    · cases h
    · rename_i ha
      split at h <;> cases h
      exact { hs with memCanonical := wfFrom_write _ (by omega) (Nat.zero_le _) hs.memCanonical }

/-- The start of `continue()` leaves neither a fault nor a report (R141, R154). -/
theorem State.Inv.resume (hs : s.Inv) : s.resume.Inv :=
  { hs with
    faultHalted := by simp
    reportStopped := by simp
    reportBreakpoint := by simp }

theorem State.Inv.continueRun (hs : s.Inv) (h : continueRun s = .ok t) : t.Inv := by
  unfold Machine.continueRun at h
  split at h <;> cases h
  exact hs.resume

/-- A list without repetition stays so when an element that it lacks is put at its end. -/
theorem nodup_append_singleton {α : Type} {l : List α} {a : α} (hl : l.Nodup) (ha : a ∉ l) : (l ++ [a]).Nodup := by
  refine List.nodup_append.2 ⟨hl, by simp, fun x hx y hy hxy => ha ?_⟩
  rw [← List.mem_singleton.1 hy, ← hxy]
  exact hx

/-- Setting a breakpoint that is set already adds none, and a new one is enabled (R157). -/
theorem State.Inv.setBreakpoint (hs : s.Inv) (a : Cell) : (setBreakpoint a s).Inv := by
  unfold Machine.setBreakpoint
  split
  · exact hs
  · rename_i ha
    have hnew : a ∉ s.host.breakpoints.map Breakpoint.addr := by simpa using ha
    exact { hs with
      breakpointsOnce := by
        rw [List.map_append]; exact nodup_append_singleton hs.breakpointsOnce hnew
      breakpointsEnabled := List.forall_mem_append.2 ⟨hs.breakpointsEnabled, by simp⟩ }

/-- Setting a watch that is set already adds none, and a new one is enabled (R157). -/
theorem State.Inv.setWatch (hs : s.Inv) (r : Reg) : (setWatch r s).Inv := by
  unfold Machine.setWatch
  split
  · exact hs
  · rename_i hr
    have hnew : r ∉ s.host.watches.map Watch.reg := by simpa using hr
    exact { hs with
      watchesOnce := by
        rw [List.map_append]; exact nodup_append_singleton hs.watchesOnce hnew
      watchesEnabled := List.forall_mem_append.2 ⟨hs.watchesEnabled, by simp⟩ }

/-- An operation that is refused changes nothing, so what it must keep is what it keeps when it is accepted. -/
theorem State.Inv.changed (hs : s.Inv) {e : Except HostError State} (h : ∀ {t}, e = .ok t → t.Inv) :
    (changed s e).1.Inv := by
  cases e with
  | ok t => exact h rfl
  | error _ => exact hs

/-- Every host operation keeps the invariant (R150). -/
theorem State.Inv.perform (hs : s.Inv) (c : Command) : (perform c s).1.Inv := by
  cases c with
  | loadImage b => exact hs.changed hs.loadImage
  | loadSnapshot n => exact hs.changed hs.loadSnapshot
  | writeRegister r v => exact hs.changed hs.writeRegister
  | writeMemory a v => exact hs.changed hs.writeMemory
  | inspectMemory a => unfold Machine.perform; dsimp only; split <;> exact hs
  | resume => exact hs.changed hs.continueRun
  | setBreakpoint a => exact hs.setBreakpoint a
  | setWatch r => exact hs.setWatch r
  | toggleTrace => exact { hs with }
  | save => unfold Machine.perform; dsimp only; split <;> exact hs

theorem State.Inv.answer (hs : s.Inv) (c : Command) : (s.answer c).Inv := { hs.perform c with }

theorem State.Inv.issue (hs : s.Inv) (c : Command) : (s.issue c).Inv := { hs with }

theorem State.Inv.serveHost (hs : s.Inv) : s.serveHost.Inv := by
  unfold State.serveHost
  split
  · exact hs
  · rename_i c rest _
    have hpopped : State.Inv { s with host := { s.host with script := rest } } := { hs with }
    exact hpopped.answer c

theorem State.Inv.arrive (hs : s.Inv) (a : Arrival) : (s.arrive a).Inv := by
  cases a with
  | word w => exact { hs with }
  | command c => exact hs.issue c
  | direct c =>
    unfold State.arrive
    dsimp only
    split
    · exact hs.issue c
    · exact hs.answer c
  | cancel b => exact { hs with }

end

/-- Settles O15: a `Running` core does a round of the `continue()` loop, any other serves the host, and both keep the
invariant. -/
theorem stepKeepsTheInvariant : Obligations.StepKeepsTheInvariant := by
  intro s t hs h
  rw [step] at h
  split at h
  · rename_i hm; exact hs.runRound hm h
  · cases h; exact hs.serveHost
  · cases h; exact hs.serveHost

/-- Settles O16: only an operation performed on arrival reaches the Machine State. -/
theorem arrivalKeepsTheInvariant : Obligations.ArrivalKeepsTheInvariant := by
  refine fun s a hs => ⟨hs.arrive a, fun hd => ?_⟩
  have same : SameMachineState s s := ⟨fun _ => rfl, rfl, fun _ => rfl, rfl⟩
  cases a with
  | direct c => exact absurd rfl (hd c)
  | word w => exact ⟨same, rfl⟩
  | command c => exact ⟨same, rfl⟩
  | cancel b => exact ⟨same, rfl⟩

/-! ### Single instructions -/

section
variable (s : State) (d : Reg) (v : Word) (n : Nat)

/-- The end of a register-writing instruction changes its destination and `pc` only. -/
theorem onlyRegister_retire : OnlyRegister d s (retire s d v n) :=
  ⟨fun r hr => by simp [hr], rfl, fun _ => rfl, ⟨rfl, rfl, rfl⟩, rfl, rfl⟩

end

theorem truthWord_toNat (b : Bool) : (truthWord b).toNat = if b = true then 1 else 0 := by cases b <;> rfl

/-- A `pop` with a Word on top completes (R82). -/
theorem execPop_word {s : State} {c : Cell} {rest : List Cell} (hs : s.stack = c :: rest) (hc : c.toNat < 32768)
    (d : Reg) : execPop d s = .next (retire { s with stack := rest } d (low15 c) 1) := by
  rcases execPop_cases d s with ⟨hnil, _⟩ | ⟨c', rest', hcons, h⟩
  · cases hs.symm.trans hnil
  · cases hs.symm.trans hcons
    rcases h with ⟨hge, _⟩ | ⟨_, e⟩
    · exact absurd hc (by omega)
    · exact e

/-- Settles O21: both are a `retire` of a truth Word. -/
theorem comparisonsWriteOneOrZero : Obligations.ComparisonsWriteOneOrZero := by
  intro d b c s
  refine ⟨⟨_, rfl, ?_, rfl, onlyRegister_retire ..⟩, ⟨_, rfl, ?_, rfl, onlyRegister_retire ..⟩⟩
  · simp [truthWord_toNat]
  · simp [truthWord_toNat]

/-- Settles O18: the operand is placed in a Cell unchanged. -/
theorem pushPutsTheValueOnTop : Obligations.PushPutsTheValueOnTop := fun _ _ =>
  ⟨_, rfl, ⟨_, rfl, zext16_toNat _⟩, rfl, fun _ => rfl, fun _ => rfl, ⟨rfl, rfl, rfl⟩, rfl, rfl⟩

/-- Settles O19: the top entry moves as it is, since it is a Word. -/
theorem popMovesTheTopToTheRegister : Obligations.PopMovesTheTopToTheRegister := by
  intro d s c rest hs hc
  have hword : c.toNat < 32768 := by omega
  obtain ⟨hregs, -, hmem, hcontrol, hstreams⟩ := onlyRegister_retire { s with stack := rest } d (low15 c) 1
  refine ⟨_, execPop_word hs hword d, ?_, rfl, rfl, hregs, hmem, hcontrol, hstreams⟩
  simp [low15_toNat hword]

/-- Settles O34: `out` is an `emit` and an advance of `pc`, neither of which can fail. -/
theorem outAppendsTheWord : Obligations.OutAppendsTheWord := fun _ _ =>
  ⟨_, rfl, rfl, rfl, rfl, fun _ => rfl, rfl, fun _ => rfl, rfl, rfl, rfl⟩

/-- Settles O35: with input there is no wait. -/
theorem inTakesTheNextWord : Obligations.InTakesTheNextWord := by
  intro d s v rest hs
  have hexec : exec (.inp d) s = .next (retire { s with input := rest } d v 1) := by simp only [exec, execIn, hs]
  obtain ⟨hregs, hstack, hmem, hcontrol, -⟩ := onlyRegister_retire { s with input := rest } d v 1
  exact ⟨_, hexec, regFile_get_set_self .., rfl, rfl, rfl, hregs, hstack, hmem, hcontrol⟩

/-! ### Reset, load and the idle core -/

/-- Settles O12: outside `Running` a step serves the host, and here nothing is issued. -/
theorem coreThatIsNotRunningDoesNothing : Obligations.CoreThatIsNotRunningDoesNothing := by
  intro s hm hs
  have hidle : s.serveHost = s := by simp only [State.serveHost, hs]
  rw [step]
  split
  · exact absurd ‹_› hm
  · rw [hidle]
  · rw [hidle]

/-- Settles O14: nothing is listed, recorded or set at reset, so every clause but the range of `pc` is about nothing. -/
theorem resetMeetsTheInvariant : Obligations.ResetMeetsTheInvariant where
  pcInRange := by decide
  stackInRange := by simp [State.reset]
  memCanonical := rfl
  faultHalted := by simp [State.reset]
  reportStopped := by simp [State.reset]
  reportBreakpoint := by simp [State.reset]
  breakpointsOnce := .nil
  watchesOnce := .nil
  breakpointsEnabled := by simp [State.reset]
  watchesEnabled := by simp [State.reset]

/-- An image of an even number of bytes that fits is loaded (R171, R174). -/
theorem loadImage_ok {b : List Byte} (heven : b.length % 2 = 0) (hfits : b.length ≤ 65536) (s : State) :
    loadImage b s = .ok (s.loaded (Memory.ofCells 0 (imageCells b)) {} [] 0) := by
  rw [loadImage, if_neg (by omega), if_neg (by simp only [Config.memCells]; omega)]

/-- Every register of the fresh register file is 0 (R29). -/
theorem regFile_get_fresh (r : Reg) : RegFile.get {} r = 0 := by cases r <;> rfl

/-- Every Cell past the image is 0 (R171). -/
theorem read_image_past {b : List Byte} {a : Nat} (h : b.length ≤ 2 * a) :
    Memory.read (Memory.ofCells 0 (imageCells b)) a = 0 := by
  rw [read_ofCells, if_pos (Nat.zero_le a)]
  rw [List.getD_eq_getElem?_getD, List.getElem?_eq_none (by rw [imageCells_length]; omega), Option.getD_none]

/-- Settles O44: the load is accepted, and every clause is a field of the loaded state. -/
theorem loadOfAnImageResets : Obligations.LoadOfAnImageResets := fun _ s heven hfits =>
  ⟨_, loadImage_ok heven hfits s, regFile_get_fresh, rfl, rfl, rfl, rfl, rfl, rfl, fun _ => read_image_past⟩

/-- Settles O46: the image of no bytes has no Cells. -/
theorem resetIsTheEmptyImage : Obligations.ResetIsTheEmptyImage :=
  ⟨_, loadImage_ok rfl (Nat.zero_le _) _, ⟨fun _ => rfl, rfl, fun _ => rfl, rfl⟩, regFile_get_fresh, rfl, rfl,
    fun _ => rfl, rfl, rfl, rfl⟩

/-- The registers of a Snapshot are loaded in order (R176). -/
theorem regFile_get_ofCells (l : List Cell) (r : Reg) : (RegFile.ofCells l).get r = low15 (l.getD r.num 0) := by
  cases r <;> rfl

/-- Settles O49: the checks are those of `Snapshot.valid_iff`, and a Snapshot that passes them is loaded as it is. -/
theorem snapshotsAreCheckedByTheInvariant : Obligations.SnapshotsAreCheckedByTheInvariant := by
  intro n s
  constructor
  · intro hbad
    have hv : n.valid = false := by
      rw [← Bool.not_eq_true, n.valid_iff]
      rintro ⟨hmem, hregs, hwords, hst, hp⟩
      rcases hbad with h | h | ⟨c, hc, h⟩ | ⟨c, hc, h⟩ | h
      · exact h hmem
      · exact h hregs
      · have := hwords c hc; omega
      · have := hst c hc; omega
      · omega
    simp [perform, loadSnapshot, hv, changed]
  · intro hmem hregs hwords hst hp
    have hv : n.valid = true := n.valid_iff.2 ⟨hmem, hregs, fun c hc => Nat.lt_succ_of_le (hwords c hc), hst, hp⟩
    refine ⟨s.loaded (Memory.ofCells 0 n.memory) (RegFile.ofCells n.registers) n.stack n.pc,
      by simp [perform, loadSnapshot, hv, changed], rfl, rfl, fun r => ?_, fun a ha => ?_, rfl, rfl, rfl⟩
    · have hr : r.num < n.registers.length := hregs ▸ reg_num_lt r
      have hword := hwords _ (List.getElem_mem hr)
      rw [State.reg, loaded_regs, regFile_get_ofCells, List.getD_eq_getElem?_getD,
        List.getElem?_eq_getElem hr, Option.getD_some, low15_toNat (by omega)]
      rfl
    · have ha' : a < n.memory.length := hmem ▸ ha
      rw [loaded_mem, read_ofCells, if_pos (Nat.zero_le a), Nat.sub_zero, List.getD_eq_getElem?_getD,
        List.getElem?_eq_getElem ha', Option.getD_some]

end Sys2Proof.Machine
end

section
/-! PROOFS, family 20_memory: the two access primitives, what reaches memory, and the host operations that arrive between
two steps. -/

namespace Sys2Proof.Machine

/-! ### The access primitives -/

section
variable {m m' : Memory} {a b : Nat} {v : Cell}

/-- Inside the bound a read answers the Cell (R32). -/
theorem memRead_ok (m : Memory) (h : a < 32768) : memRead m a = .ok (Memory.read m a) := if_pos h

/-- Inside the bound a write is made (R33). -/
theorem memWrite_ok (m : Memory) (v : Cell) (h : a < 32768) : memWrite m a v = .ok (Memory.write m a v) := if_pos h

/-- The bound check of a read (R32). -/
theorem memRead_error (m : Memory) (h : 32768 ≤ a) : memRead m a = .error ⟨.outOfBounds, some (BitVec.ofNat 16 a)⟩ :=
  if_neg (Nat.not_lt.2 h)

/-- The bound check of a write (R33). -/
theorem memWrite_error (m : Memory) (v : Cell) (h : 32768 ≤ a) :
    memWrite m a v = .error ⟨.outOfBounds, some (BitVec.ofNat 16 a)⟩ :=
  if_neg (Nat.not_lt.2 h)

/-- What a checked read answers depends on the Cell at its address alone. -/
theorem memRead_congr (h : Memory.read m' a = Memory.read m a) : memRead m' a = memRead m a := by
  simp only [memRead, h]

/-- The address just written reads the Cell written (R33). -/
theorem read_write_self (hm : m.wf = true) : Memory.read (Memory.write m a v) a = v := by
  rw [read_write _ _ _ hm, if_pos rfl]

/-- A write changes no other Cell (R33). -/
theorem read_write_of_ne (hm : m.wf = true) (h : b ≠ a) : Memory.read (Memory.write m a v) b = Memory.read m b := by
  rw [read_write _ _ _ hm, if_neg h]

end

/-- Settles O28: on either side of the bound, by the laws of `Memory.write`. -/
theorem memoryAccessPrimitives : Obligations.MemoryAccessPrimitives := by
  intro m a v hm
  constructor
  · intro ha
    refine ⟨_, memRead_error m ha, memWrite_error m v ha, rfl, fun hlt => ⟨_, rfl, ?_⟩⟩
    rw [BitVec.toNat_ofNat, Nat.mod_eq_of_lt hlt]
  · intro ha
    refine ⟨memRead_ok m ha, _, memWrite_ok m v ha, wfFrom_write v ha (Nat.zero_le a) hm, ?_, fun b hb => ?_⟩
    · rw [memRead_ok _ ha, read_write_self hm]
    · exact memRead_congr (read_write_of_ne hm hb)

/-! ### What reaches memory -/

/-- Settles O31: `wmem` is one write and an advance of `pc`; a resolved address is always inside the bound. -/
theorem wmemWritesOneCell : Obligations.WmemWritesOneCell := by
  intro a b s hm
  refine ⟨_, execWmem_eq a b s, ?_, fun x hx => ?_, rfl, fun _ => rfl, rfl, ⟨rfl, rfl, rfl⟩, rfl, rfl⟩
  · rw [setPc_mem, setMem_mem, read_write_self hm, zext16_toNat]
  · rw [setPc_mem, setMem_mem, read_write_of_ne hm hx]

/-- The first Cell of a fetch below 32768 is the one at its address (R62). -/
theorem fetchCells_succ (m : Memory) {a : Nat} (h : a < 32768) (n : Nat) :
    fetchCells m a (n + 1) = Memory.read m a :: fetchCells m (a + 1) n := if_pos h

/-- Settles O32: the new `pc` is a Word, so the fetch there begins with the Cell of O31. -/
theorem wmemAtItsOwnNextIsFetched : Obligations.WmemAtItsOwnNextIsFetched := by
  intro a b s t hm h hpc
  obtain ⟨u, hu, hcell, -⟩ := wmemWritesOneCell a b s hm
  cases hu.symm.trans h
  rw [hpc]
  exact ⟨_, _, fetchCells_succ t.mem (a.val s).isLt 3, hcell⟩

/-- `wmem` is the one completion that changes memory (R37). -/
theorem Completes.mem {s t : State} {i : Instr} (h : Completes s i t) (hi : i.op ≠ .wmem) : t.mem = s.mem := by
  cases h with
  | wmem => exact absurd rfl hi
  | _ => rfl

/-- Settles O40: a fault and a wait leave memory, and so does every completion but that of `wmem`. -/
theorem onlyWmemWritesMemory : Obligations.OnlyWmemWritesMemory := by
  intro i s t h hi x
  rcases exec_cases h with ⟨_, rfl⟩ | ⟨_, rfl⟩ | hc
  · exact rfl
  · exact rfl
  · rw [hc.mem hi]

/-! ### Host operations that arrive between two steps -/

section
variable {s t : State} {c : Command}

/-- Outside the wait of `in` a direct operation is performed on arrival (log entry 4). -/
theorem arrive_direct (h : s.host.inStep = false) : s.arrive (.direct c) = s.answer c := by
  simp only [State.arrive, h, Bool.false_eq_true, if_false]

/-- While the core is `Running` the host may not change its state (R150). -/
theorem mayMutate_of_running (h : s.mode = .running) : s.mayMutate = false := by simp only [State.mayMutate, h]

/-- An accepted operation leaves its state, with the answer recorded after the earlier ones. -/
theorem answer_of_ok (h : perform c s = (t, .ok)) :
    s.answer c = { t with host := { t.host with replies := t.host.replies ++ [.ok] } } := by
  simp only [State.answer, h]

/-- The load of an image of an even number of bytes that fits is accepted in every mode (R171, R174). -/
theorem perform_loadImage_ok {b : List Byte} (heven : b.length % 2 = 0) (hfits : b.length ≤ 65536) (s : State) :
    perform (.loadImage b) s = (s.loaded (Memory.ofCells 0 (imageCells b)) {} [] 0, .ok) := by
  simp only [perform, loadImage_ok heven hfits, changed]

/-- The load of a valid Snapshot is accepted in every mode (R151, R176). -/
theorem perform_loadSnapshot_ok {n : Snapshot} (hv : n.valid = true) (s : State) :
    perform (.loadSnapshot n) s =
      (s.loaded (Memory.ofCells 0 n.memory) (RegFile.ofCells n.registers) n.stack n.pc, .ok) := by
  simp only [perform, loadSnapshot, hv, if_true, changed]

end

/-- Settles O54: what is no load reaches the host's state only, and an accepted load keeps the earlier answers. -/
theorem hostOperationsWhileRunning : Obligations.HostOperationsWhileRunning := by
  intro s c hm hi
  rw [arrive_direct hi]
  refine ⟨fun hb hn => ?_, ?_, ?_⟩
  · obtain ⟨d, hd⟩ := answer_of_not_mayMutate (mayMutate_of_running hm) c hb hn
    rw [hd]
    exact ⟨⟨⟨fun _ => rfl, rfl, fun _ => rfl, rfl⟩, rfl, rfl, rfl⟩, hm⟩
  · rintro b rfl heven hfits
    rw [answer_of_ok (perform_loadImage_ok heven hfits s)]
    exact ⟨rfl, rfl, rfl⟩
  · rintro n rfl hv
    rw [answer_of_ok (perform_loadSnapshot_ok hv s)]
    exact ⟨rfl, rfl, rfl, rfl⟩

end Sys2Proof.Machine
end

section
/-! PROOFS, family 30_encoding: the decoder and the encoder undo each other, and the decode phase at `pc` runs the instruction
that stands there or reports the first check that fails. -/

namespace Sys2Proof.Machine

/-! ### Decoding an encoding -/

section
variable (a : Reg) (x y : Operand) (rest : List Cell)

theorem formatV_encode (mk : Operand → Instr) : formatV mk (encodeOperand x :: rest) = .ok (mk x, rest) := by
  simp [formatV]

theorem formatD_encode (mk : Reg → Instr) : formatD mk (encodeReg a :: rest) = .ok (mk a, rest) := by
  simp [formatD]

theorem formatDV_encode (mk : Reg → Operand → Instr) :
    formatDV mk (encodeReg a :: encodeOperand x :: rest) = .ok (mk a x, rest) := by
  simp [formatDV]

theorem formatVV_encode (mk : Operand → Operand → Instr) :
    formatVV mk (encodeOperand x :: encodeOperand y :: rest) = .ok (mk x y, rest) := by
  simp [formatVV]

theorem formatDVV_encode (mk : Reg → Operand → Operand → Instr) :
    formatDVV mk (encodeReg a :: encodeOperand x :: encodeOperand y :: rest) = .ok (mk a x y, rest) := by
  simp [formatDVV]

end

/-- A mnemonic's operands are read back from the operand Cells of any instruction with that mnemonic (R54). -/
theorem decodeOperands_operandCells (i : Instr) (rest : List Cell) :
    decodeOperands i.op (i.operandCells ++ rest) = .ok (i, rest) := by
  cases i with
  | halt | ret | noop => rfl
  | push | jmp | call | out => exact formatV_encode ..
  | pop | inp => exact formatD_encode ..
  | set | not | rmem => exact formatDV_encode ..
  | jt | jf | wmem => exact formatVV_encode ..
  | eq | gt | add | mult | mod | and | or => exact formatDVV_encode ..

/-- An opcode Cell holds its number unchanged (R51). -/
theorem opcodeCell_toNat (o : Op) : (BitVec.ofNat 16 o.number).toNat = o.number := by
  have := op_number_le o
  rw [BitVec.toNat_ofNat]
  omega

/-- The encoding of an instruction decodes to it, whatever follows (R50, R54). -/
theorem decode_encode (i : Instr) (rest : List Cell) : decode (encode i ++ rest) = .ok (i, rest) := by
  rw [encode, List.cons_append, decode, opcodeCell_toNat, op_ofNumber_number]
  exact decodeOperands_operandCells i rest

/-- Settles O1: the decoder undoes the encoder. -/
theorem decodeOfEncodeIsTheInstruction : Obligations.DecodeOfEncodeIsTheInstruction := decode_encode

/-- Settles O2: every format takes an operand from that operand's own Cell only. -/
theorem decodedCellsAreTheEncoding : Obligations.DecodedCellsAreTheEncoding := fun _ _ _ => decode_ok

/-- Settles O3: the Cells written out are the encodings of the eight instructions. -/
theorem sampleCellsDecode : Obligations.SampleCellsDecode :=
  ⟨decode_encode (.set .r0 (.lit 4)) [],
   decode_encode (.pop .r2) [],
   decode_encode (.eq .r0 (.reg .r1) (.lit 7)) [],
   decode_encode (.jt (.reg .r0) (.lit 6)) [],
   decode_encode (.add .r0 (.reg .r0) (.reg .r1)) [],
   decode_encode (.wmem (.lit 100) (.reg .r1)) [],
   decode_encode (.inp .r7) [],
   decode_encode .noop []⟩

/-! ### The length of an instruction -/

theorem encode_length (i : Instr) : (encode i).length = i.length := by
  obtain ⟨-, -, hlen⟩ := Laws.EncodedCells.holds i
  exact hlen

/-- The length column of R56, by opcode number. -/
theorem lengthTable_number (o : Op) :
    [1, 3, 2, 2, 4, 4, 2, 3, 3, 4, 4, 4, 4, 4, 3, 3, 3, 2, 1, 2, 2, 1][o.number]? = some (1 + o.arity) := by
  cases o <;> rfl

/-- An opcode Cell above 21 is refused before any operand is looked at (R58). -/
theorem decode_of_opcode_gt {op : Cell} (h : 21 < op.toNat) (cs : List Cell) :
    decode (op :: cs) = .error (.invalidOpcode op) := by
  simp [decode, op_ofNumber_none.2 h]

/-- What decodes begins with the opcode Cell of the instruction (R51). -/
theorem opcode_of_decode {op : Cell} {cs rest : List Cell} {i : Instr} (h : decode (op :: cs) = .ok (i, rest)) :
    op.toNat = i.op.number := by
  obtain ⟨rfl, -⟩ := List.cons.inj (decode_ok h)
  exact opcodeCell_toNat i.op

/-- Settles O4: the Cells taken are the encoding, whose length depends on the mnemonic alone. -/
theorem opcodeCellAloneTellsTheLength : Obligations.OpcodeCellAloneTellsTheLength := by
  refine fun op cs => ⟨fun h => decode_of_opcode_gt h cs, fun i rest h => ?_⟩
  have hlen : (op :: cs).length = i.length + rest.length := by
    rw [decode_ok h, List.length_append, encode_length]
  rw [opcode_of_decode h, lengthTable_number, hlen, Nat.add_sub_cancel]
  exact ⟨rfl, Nat.le_add_left ..⟩

/-! ### Operand Cells -/

/-- Settles O5: a Cell up to 32775 is the Cell of one operand, whose kind its number tells. -/
theorem valueOperandResolution : Obligations.ValueOperandResolution := by
  intro w s
  rcases decodeValue_cases w with ⟨hok, o, hdec, rfl⟩ | ⟨hok, hdec⟩
  · have hval : rawVal (encodeOperand o) s = .ok (o.val s) := by simp only [rawVal, hdec]
    simp only [valueCellOk, Config.regTop, decide_eq_true_eq] at hok
    refine ⟨fun hlt => ?_, fun hge _ => ?_, fun hgt => absurd hok (by omega)⟩
    · cases o with
      | lit v => exact ⟨v, hval, (zext16_toNat v).symm⟩
      | reg r => have := encodeReg_toNat r; simp only [encodeOperand] at hlt; omega
    · cases o with
      | lit v => have := v.isLt; simp only [encodeOperand, zext16_toNat] at hge; omega
      | reg r => exact ⟨r, by simp only [encodeOperand, encodeReg_toNat]; omega, hval⟩
  · have hval : rawVal w s = .error (.invalidOperand w) := by simp only [rawVal, hdec]
    simp only [valueCellOk, Config.regTop, decide_eq_false_iff_not] at hok
    exact ⟨fun hlt => by omega, fun _ hle => absurd hle hok, fun _ => hval⟩

/-- Settles O6: a Cell passes the check of a destination exactly when it is the Cell of a register. -/
theorem destinationOperandValidation : Obligations.DestinationOperandValidation := by
  intro w
  rcases decodeDest_cases w with ⟨hok, r, hdec, rfl⟩ | ⟨hok, hdec⟩
  · have hnum := encodeReg_toNat r
    have hlt := reg_num_lt r
    exact ⟨fun _ _ => ⟨r, hdec, by omega⟩, fun hout => by omega⟩
  · simp only [destCellOk, Config.regBase, Config.regTop, Bool.and_eq_false_iff, decide_eq_false_iff_not] at hok
    exact ⟨fun hge hle => by omega, fun _ => hdec⟩

/-! ### The step of a decoded instruction -/

section
variable {s : State} {i : Instr} {rest : List Cell}

/-- A core that nothing stops runs what it fetches (R63). -/
theorem step_of_fetch_ok (hr : s.ready) (hf : s.fetch = .ok (i, rest)) :
    step s = settleResult s i (exec i (s.traced i)) := by
  simp only [step_of_ready hr, cycle, hf]

/-- A core that nothing stops takes the fault of a fetch that fails (R62). -/
theorem step_of_fetch_error {e : DecodeError} (hr : s.ready) (hf : s.fetch = .error e) :
    step s = .next (s.takeFault (decodeRaise s.pc e)) := by
  simp only [step_of_ready hr, cycle, hf]

/-- Without trace no line is emitted (R158). -/
theorem traced_of_not_trace (h : s.host.trace = false) (i : Instr) : s.traced i = s := by
  simp [State.traced, h]

/-- The end of a round changes nothing that is not left over from a visit or a wait. -/
theorem endRound_eq_self (hskip : s.host.skip = false) (hin : s.host.inStep = false) : s.endRound = s := by
  obtain ⟨regs, pc, stack, mem, mode, fault, output, input, host⟩ := s
  obtain ⟨bs, ws, tr, ob, rep, skip, cancel, inStep, script, replies⟩ := host
  cases hskip; cases hin; rfl

/-- Where the host does not watch, the end of a round adds nothing to a completed instruction (R154, R156). -/
theorem settle_of_quiet {t : State} (hq : s.quiet) (hw : i.waits s = false) (ht : t.host = s.host) :
    s.settle i t = t := by
  obtain ⟨-, hwatch, -, hskip, hin⟩ := hq
  have hnone : s.changedWatch t = none := by simp [State.changedWatch, hwatch]
  rcases settle_cases s i t with ⟨hw', -⟩ | ⟨-, -, e⟩ | ⟨-, -, -, e⟩ | ⟨-, -, w, hsome, -⟩
  · cases hw.symm.trans hw'
  · exact e
  · rw [e, endRound_eq_self (ht ▸ hskip) (ht ▸ hin)]
  · cases hnone.symm.trans hsome

/-- A core that the host neither watches nor traces runs the fetched instruction and nothing else (R63). -/
theorem step_of_quiet (hq : s.quiet) (hw : i.waits s = false) (hf : s.fetch = .ok (i, rest)) :
    step s = exec i s := by
  have ⟨hready, _, htrace, _⟩ := hq
  obtain ⟨t, ht, hhost⟩ := exec_next_host i s
  rw [step_of_fetch_ok hready hf, traced_of_not_trace htrace, ht, settleResult, settle_of_quiet hq hw hhost]

end

/-- Settles O7: a ready step is a cycle, and in a quiet core the trace and the end of the round add nothing. -/
theorem stepRunsTheDecodedInstruction : Obligations.StepRunsTheDecodedInstruction := fun _ _ _ hr hf =>
  ⟨step_of_fetch_ok hr hf, fun hq hw => step_of_quiet hq hw hf⟩

/-! ### The instruction that stands at `pc` -/

/-- Cells that stand in memory from `a` on are the first ones fetched there (R62). -/
theorem fetchCells_of_reads (m : Memory) : ∀ (cs : List Cell) (a n : Nat), a + cs.length ≤ Config.memCells →
    (∀ k c, cs[k]? = some c → Memory.read m (a + k) = c) →
    fetchCells m a (cs.length + n) = cs ++ fetchCells m (a + cs.length) n
  | [], a, n, _, _ => by simp
  | c :: cs, a, n, hfit, hreads => by
    simp only [List.length_cons] at hfit ⊢
    have hhead : Memory.read m a = c := hreads 0 c rfl
    have htail : ∀ k c', cs[k]? = some c' → Memory.read m (a + 1 + k) = c' := fun k c' hk => by
      rw [Nat.add_right_comm]; exact hreads (k + 1) c' hk
    have ih := fetchCells_of_reads m cs (a + 1) n (by omega) htail
    rw [Nat.add_right_comm, fetchCells, if_pos (by omega), hhead, ih, Nat.add_right_comm a 1]
    rfl

/-- No instruction is longer than the Cells fetched for it (R50). -/
theorem length_le_maxLength (i : Instr) : i.length ≤ Config.maxLength := by
  have harity : ∀ o : Op, 1 + o.arity ≤ Config.maxLength := fun o => by cases o <;> decide
  exact harity i.op

/-- What stands at `pc` is fetched (R62). -/
theorem fetch_of_encode_at_pc {i : Instr} {s : State} (hfit : s.pc.toNat + i.length ≤ Config.memCells)
    (hcells : ∀ k c, (encode i)[k]? = some c → Memory.read s.mem (s.pc.toNat + k) = c) :
    ∃ rest, s.fetch = .ok (i, rest) := by
  rw [← encode_length] at hfit
  obtain ⟨n, hn⟩ := Nat.exists_eq_add_of_le (encode_length i ▸ length_le_maxLength i)
  exact ⟨_, by rw [State.fetch, hn, fetchCells_of_reads _ _ _ _ hfit hcells, decode_encode]⟩

/-- Settles O8: the Cells at `pc` are fetched and decode to the instruction. -/
theorem instructionAtPcRuns : Obligations.InstructionAtPcRuns := by
  intro i s hq hw hfit hcells
  obtain ⟨rest, hf⟩ := fetch_of_encode_at_pc (of_decide_eq_true hfit) hcells
  exact step_of_quiet hq hw hf

/-! ### The first failing check of the decode phase -/

/-- The fault that a decode begun at `pc0` raises, if it fails. -/
def decodeRaised {α : Type} (pc0 : Cell) : Except DecodeError α → Option Raise
  | .ok _ => none
  | .error e => some (decodeRaise pc0 e)

section
variable (m : Memory) (pc0 : Cell) (n : Nat)

/-- Past the top of memory nothing is fetched (R32, R62). -/
theorem fetchCells_past {a : Nat} (h : 32768 ≤ a) : fetchCells m a n = [] := by
  cases n with
  | zero => rfl
  | succ n => exact if_neg (Nat.not_lt.2 h)

/-- The fault of a missing operand Cell names the Cell's address (R62, R132). -/
theorem decodeRaise_missing (k : Nat) :
    decodeRaise pc0 (.missing k) = ⟨.outOfBounds, some (BitVec.ofNat 16 (pc0.toNat + k))⟩ := by
  rw [BitVec.ofNat_add, BitVec.ofNat_toNat, BitVec.setWidth_eq]; rfl

end

/-! A format takes its operands one after the other, and an error of one is the error of the format. -/

section
variable (cs : List Cell)

theorem formatV_eq_bind (mk : Operand → Instr) :
    formatV mk cs = takeValue 1 cs >>= fun p => .ok (mk p.1, p.2) := by
  unfold formatV; cases takeValue 1 cs <;> rfl

theorem formatD_eq_bind (mk : Reg → Instr) :
    formatD mk cs = takeDest 1 cs >>= fun p => .ok (mk p.1, p.2) := by
  unfold formatD; cases takeDest 1 cs <;> rfl

theorem formatDV_eq_bind (mk : Reg → Operand → Instr) :
    formatDV mk cs = takeDest 1 cs >>= fun p => takeValue 2 p.2 >>= fun q => .ok (mk p.1 q.1, q.2) := by
  simp only [formatDV, bind, Except.bind]
  cases takeDest 1 cs with
  | error e => rfl
  | ok p => cases h : takeValue 2 p.2 <;> simp only [h]

theorem formatVV_eq_bind (mk : Operand → Operand → Instr) :
    formatVV mk cs = takeValue 1 cs >>= fun p => takeValue 2 p.2 >>= fun q => .ok (mk p.1 q.1, q.2) := by
  simp only [formatVV, bind, Except.bind]
  cases takeValue 1 cs with
  | error e => rfl
  | ok p => cases h : takeValue 2 p.2 <;> simp only [h]

theorem formatDVV_eq_bind (mk : Reg → Operand → Operand → Instr) :
    formatDVV mk cs = takeDest 1 cs >>= fun p => takeValue 2 p.2 >>= fun q => takeValue 3 q.2 >>= fun r =>
      .ok (mk p.1 q.1 r.1, r.2) := by
  simp only [formatDVV, bind, Except.bind]
  cases takeDest 1 cs with
  | error e => rfl
  | ok p =>
    cases h : takeValue 2 p.2 with
    | error e => simp only [h]
    | ok q => cases h' : takeValue 3 q.2 <;> simp only [h, h']

end

/-- `take` reads one operand Cell, of the given role and at offset `k`: a missing Cell is reported first, then an invalid one
(R62). -/
structure TakesOperand {α : Type} (role : Role) (k : Nat) (take : List Cell → Except DecodeError (α × List Cell)) : Prop where
  nil : take [] = .error (.missing k)
  cons : ∀ w rest, (operandCellOk role w = true ∧ ∃ o, take (w :: rest) = .ok (o, rest)) ∨
    (operandCellOk role w = false ∧ take (w :: rest) = .error (.invalidOperand w))

theorem takesOperand_takeDest (k : Nat) : TakesOperand .dest k (takeDest k) where
  nil := rfl
  cons w rest := by
    rcases decodeDest_cases w with ⟨hok, d, hdec, -⟩ | ⟨hok, hdec⟩
    · exact .inl ⟨hok, d, by simp only [takeDest, hdec]⟩
    · exact .inr ⟨hok, by simp only [takeDest, hdec]⟩

theorem takesOperand_takeValue (k : Nat) : TakesOperand .value k (takeValue k) where
  nil := rfl
  cons w rest := by
    rcases decodeValue_cases w with ⟨hok, o, hdec, -⟩ | ⟨hok, hdec⟩
    · exact .inl ⟨hok, o, by simp only [takeValue, hdec]⟩
    · exact .inr ⟨hok, by simp only [takeValue, hdec]⟩

section
variable {m : Memory} {pc0 : Cell}

/-- Taking an operand from memory makes the first check of `operandFault`; when it passes, what is decoded next has to make the
checks of the operands after it. -/
theorem TakesOperand.raised {α β : Type} {role : Role} {roles : List Role} {k n : Nat}
    {take : List Cell → Except DecodeError (α × List Cell)} {cont : α × List Cell → Except DecodeError β}
    (ht : TakesOperand role k take)
    (hcont : ∀ o, decodeRaised pc0 (cont (o, fetchCells m (pc0.toNat + (k + 1)) n)) =
      operandFault m pc0.toNat (k + 1) roles) :
    decodeRaised pc0 (take (fetchCells m (pc0.toNat + k) (n + 1)) >>= cont) =
      operandFault m pc0.toNat k (role :: roles) := by
  rw [operandFault]
  by_cases hk : 32768 ≤ pc0.toNat + k
  · rw [fetchCells_past m _ hk, ht.nil, if_pos hk, ← decodeRaise_missing]
    rfl
  · rw [fetchCells_succ m (Nat.lt_of_not_le hk), if_neg hk]
    rcases ht.cons (Memory.read m (pc0.toNat + k)) (fetchCells m (pc0.toNat + k + 1) n) with ⟨hok, o, h⟩ | ⟨hok, h⟩
    · rw [h, if_pos hok]
      exact hcont o
    · rw [h, hok]
      rfl

theorem formatV_raised (mk : Operand → Instr) :
    decodeRaised pc0 (formatV mk (fetchCells m (pc0.toNat + 1) 3)) = operandFault m pc0.toNat 1 [.value] := by
  rw [formatV_eq_bind]
  exact (takesOperand_takeValue 1).raised fun _ => rfl

theorem formatD_raised (mk : Reg → Instr) :
    decodeRaised pc0 (formatD mk (fetchCells m (pc0.toNat + 1) 3)) = operandFault m pc0.toNat 1 [.dest] := by
  rw [formatD_eq_bind]
  exact (takesOperand_takeDest 1).raised fun _ => rfl

theorem formatDV_raised (mk : Reg → Operand → Instr) :
    decodeRaised pc0 (formatDV mk (fetchCells m (pc0.toNat + 1) 3)) = operandFault m pc0.toNat 1 [.dest, .value] := by
  rw [formatDV_eq_bind]
  exact (takesOperand_takeDest 1).raised fun _ => (takesOperand_takeValue 2).raised fun _ => rfl

theorem formatVV_raised (mk : Operand → Operand → Instr) :
    decodeRaised pc0 (formatVV mk (fetchCells m (pc0.toNat + 1) 3)) = operandFault m pc0.toNat 1 [.value, .value] := by
  rw [formatVV_eq_bind]
  exact (takesOperand_takeValue 1).raised fun _ => (takesOperand_takeValue 2).raised fun _ => rfl

theorem formatDVV_raised (mk : Reg → Operand → Operand → Instr) :
    decodeRaised pc0 (formatDVV mk (fetchCells m (pc0.toNat + 1) 3)) =
      operandFault m pc0.toNat 1 [.dest, .value, .value] := by
  rw [formatDVV_eq_bind]
  exact (takesOperand_takeDest 1).raised fun _ => (takesOperand_takeValue 2).raised fun _ =>
    (takesOperand_takeValue 3).raised fun _ => rfl

/-- Decoding the operands of a mnemonic from memory raises the first failing check of its roles (R140). -/
theorem decodeOperands_raised (o : Op) :
    decodeRaised pc0 (decodeOperands o (fetchCells m (pc0.toNat + 1) 3)) = operandFault m pc0.toNat 1 o.roles := by
  cases o with
  | halt | ret | noop => rfl
  | push | jmp | call | out => exact formatV_raised _
  | pop | inp => exact formatD_raised _
  | set | not | rmem => exact formatDV_raised _
  | jt | jf | wmem => exact formatVV_raised _
  | eq | gt | add | mult | mod | and | or => exact formatDVV_raised _

end

section
variable {s : State}

/-- Below the top of memory the fetch decodes the Cell at `pc` and the three after it. -/
theorem fetch_eq (h : s.pc.toNat < 32768) :
    s.fetch = decode (Memory.read s.mem s.pc.toNat :: fetchCells s.mem (s.pc.toNat + 1) 3) :=
  congrArg decode (fetchCells_succ s.mem h 3)

/-- What is fetched is the instruction of the opcode Cell at `pc` (R51). -/
theorem opcode_of_fetch {i : Instr} {rest : List Cell} (h : s.fetch = .ok (i, rest)) :
    (Memory.read s.mem s.pc.toNat).toNat = i.op.number := by
  have hfit := fetch_fits h
  have hpc : s.pc.toNat < 32768 := by simp only [Instr.length, Config.memCells] at hfit; omega
  exact opcode_of_decode ((fetch_eq hpc).symm.trans h)

/-- The checks of R140, written apart from the decoder, name the fault that the decoder raises. -/
theorem decodeFault_eq (s : State) : s.decodeFault = decodeRaised s.pc s.fetch := by
  rw [State.decodeFault]
  by_cases hpc : 32768 ≤ s.pc.toNat
  · have hmissing : s.fetch = .error (.missing 0) := congrArg decode (fetchCells_past s.mem 4 hpc)
    rw [if_pos hpc, hmissing, decodeRaised, decodeRaise_missing, Nat.add_zero, BitVec.ofNat_toNat, BitVec.setWidth_eq]
  · rw [if_neg hpc, fetch_eq (Nat.lt_of_not_le hpc), decode]
    cases Op.ofNumber (Memory.read s.mem s.pc.toNat).toNat with
    | none => rfl
    | some o => exact (decodeOperands_raised o).symm

end

/-- Settles O9: the named check is the decoder's own, so it is that of the step; none is named exactly when the fetch
succeeds. -/
theorem decodePhaseReportsTheFirstFailingCheck : Obligations.DecodePhaseReportsTheFirstFailingCheck := by
  intro s hr
  rw [decodeFault_eq]
  cases hf : s.fetch with
  | error e =>
    refine ⟨fun r hraised => ?_, nofun⟩
    cases hraised
    exact ⟨_, step_of_fetch_error hr hf, tookFault_takeFault ..⟩
  | ok p => exact ⟨nofun, fun _ => ⟨p.1, p.2, rfl, (opcode_of_fetch hf).symm, step_of_fetch_ok hr hf⟩⟩

end Sys2Proof.Machine
end

section
/-! PROOFS, family 40_data_movement: what `set` writes, and when `pop` and `ret` fault. -/

namespace Sys2Proof.Machine

/-- Settles O17: `set` is a `retire` of the resolved value, which never fails. -/
theorem setWritesTheValue : Obligations.SetWritesTheValue := fun _ _ _ =>
  ⟨_, rfl, regFile_get_set_self .., rfl, onlyRegister_retire ..⟩

/-! ### The faults of the stack -/

section
variable {s : State}

/-- A `pop` on an empty stack faults (R82, R135). -/
theorem execPop_nil (hs : s.stack = []) (d : Reg) :
    execPop d s = .next (s.takeFault ⟨.stackUnderflow, none⟩) := by
  rcases execPop_cases d s with ⟨_, e⟩ | ⟨c, rest, hcons, _⟩
  · exact e
  · cases hs.symm.trans hcons

/-- A `pop` of an entry that is no Word faults (R82, decision D5). -/
theorem execPop_not_word {c : Cell} {rest : List Cell} (hs : s.stack = c :: rest) (hc : 32768 ≤ c.toNat) (d : Reg) :
    execPop d s = .next (s.takeFault ⟨.valueOutOfRange, some c⟩) := by
  rcases execPop_cases d s with ⟨hnil, _⟩ | ⟨c', rest', hcons, h⟩
  · cases hs.symm.trans hnil
  · cases hs.symm.trans hcons
    rcases h with ⟨_, e⟩ | ⟨hlt, _⟩
    · exact e
    · exact absurd hc (Nat.not_le.2 hlt)

/-- A `ret` on an empty stack faults (R95, R135). -/
theorem execRet_nil (hs : s.stack = []) : execRet s = .next (s.takeFault ⟨.stackUnderflow, none⟩) := by
  rcases execRet_cases s with ⟨_, e⟩ | ⟨c, rest, hcons, _⟩
  · exact e
  · cases hs.symm.trans hcons

end

/-- Settles O20: in each case the instruction is one `takeFault`. -/
theorem popAndRetFaults : Obligations.PopAndRetFaults := by
  intro d s
  constructor
  · intro hs
    exact ⟨⟨_, execPop_nil hs d, tookFault_takeFault ..⟩, ⟨_, execRet_nil hs, tookFault_takeFault ..⟩⟩
  · intro c rest hs hc
    exact ⟨_, execPop_not_word hs hc d, tookFault_takeFault ..⟩

end Sys2Proof.Machine
end

section
/-! PROOFS, family 42_control_transfer: where the jumps, `call` and `ret` go, and what they leave alone. -/

namespace Sys2Proof.Machine

/-! ### The jumps -/

/-- Writing `pc` is all that `setPc` does. -/
theorem onlyPc_setPc (s : State) (c : Cell) : OnlyPc s (s.setPc c) :=
  ⟨fun _ => rfl, rfl, fun _ => rfl, ⟨rfl, rfl, rfl⟩, rfl, rfl⟩

/-- A Word is a true condition exactly when its number is not 0 (R91, R92). -/
theorem truthy_iff_toNat {w : Word} : truthy w = true ↔ w.toNat ≠ 0 := by
  rw [truthy_iff, Ne, BitVec.toNat_eq]; rfl

section
variable (a b : Operand) (s : State)

/-- `jt` is one write of `pc` (R91). -/
theorem execJt_eq : execJt a b s = .next (s.setPc (if truthy (a.val s) then zext16 (b.val s) else s.next 2)) := by
  rw [apply_ite s.setPc]; rfl

/-- `jf` is one write of `pc` (R92). -/
theorem execJf_eq : execJf a b s = .next (s.setPc (if truthy (a.val s) then s.next 2 else zext16 (b.val s))) := by
  rw [apply_ite s.setPc]; rfl

end

/-- Settles O22: each jump is one `setPc`; the condition as a Word and as a number agree. -/
theorem jumpsSetPcAndNothingElse : Obligations.JumpsSetPcAndNothingElse := by
  intro a b s
  refine ⟨⟨_, rfl, zext16_toNat _, onlyPc_setPc ..⟩, ⟨_, execJt_eq a b s, ?_, onlyPc_setPc ..⟩,
    ⟨_, execJf_eq a b s, ?_, onlyPc_setPc ..⟩⟩
  · rw [setPc_pc]
    split
    · next ha => rw [if_pos (truthy_iff_toNat.2 ha), zext16_toNat]
    · next ha => exact if_neg (mt truthy_iff_toNat.1 ha)
  · rw [setPc_pc]
    split
    · next ha => rw [if_neg fun ht => truthy_iff_toNat.1 ht ha, zext16_toNat]
    · next ha => exact if_pos (truthy_iff_toNat.2 ha)

/-! ### `call` and `ret` -/

/-- A `ret` with an entry on the stack completes (R95). -/
theorem execRet_cons {s : State} {c : Cell} {rest : List Cell} (hs : s.stack = c :: rest) :
    execRet s = .next ({ s with stack := rest }.setPc c) := by
  rcases execRet_cases s with ⟨hnil, _⟩ | ⟨c', rest', hcons, e⟩
  · cases hs.symm.trans hnil
  · cases hs.symm.trans hcons
    exact e

/-- Settles O23: `call` is a push of the next address and a jump, neither of which fails. -/
theorem callPushesTheReturnAddressAndJumps : Obligations.CallPushesTheReturnAddressAndJumps := fun _ _ =>
  ⟨_, rfl, rfl, zext16_toNat _, fun _ => rfl, fun _ => rfl, ⟨rfl, rfl, rfl⟩, rfl, rfl⟩

/-- Settles O24: an entry on the stack rules out the one fault of `ret`. -/
theorem retPopsIntoPc : Obligations.RetPopsIntoPc := fun _ _ _ hs =>
  ⟨_, execRet_cons hs, rfl, rfl, fun _ => rfl, fun _ => rfl, ⟨rfl, rfl, rfl⟩, rfl, rfl⟩

/-- Settles O25: what O23 says is on the stack after the `call` is what O24 says the `ret` takes. -/
theorem retAfterCallReturns : Obligations.RetAfterCallReturns := by
  intro a s t u hcall hu
  obtain ⟨t', ht', hstack, -⟩ := callPushesTheReturnAddressAndJumps a s
  cases ht'.symm.trans hcall
  obtain ⟨v, hret, hpc, hrest, -⟩ := retPopsIntoPc u _ _ (hu.trans hstack)
  exact ⟨v, hret, hpc, hrest⟩

end Sys2Proof.Machine
end

section
/-! PROOFS, family 43_alu: the number that each operation writes, and the fault of a divisor 0. -/

namespace Sys2Proof.Machine

/-! ### The results as numbers -/

@[simp] theorem narrow_toNat (n : Nat) : (narrow n).toNat = n % 32768 := by
  simp [narrow]

/-- A remainder of two Words is a Word already (R100, R103). -/
theorem narrow_mod_toNat (b c : Word) : (narrow (b.toNat % c.toNat)).toNat = b.toNat % c.toNat := by
  rw [narrow_toNat]
  exact Nat.mod_eq_of_lt (Nat.lt_of_le_of_lt (Nat.mod_le ..) b.isLt)

/-- Flipping the 15 bits of a Word takes it from 32767 (R106). -/
theorem aluNot_toNat (b : Word) : (aluNot b).toNat = 32767 - b.toNat := by
  have hnot : aluNot b = ~~~b := BitVec.xor_allOnes
  rw [hnot, BitVec.toNat_not]

/-- Adding `32768 - k` takes away `k`, modulo 32768 (R100). -/
theorem add_complement_emod {k : Nat} (hk : k ≤ 32768) (n : Nat) :
    (((n + (32768 - k)) % 32768 : Nat) : Int) = ((n : Int) - k) % 32768 := by
  omega

/-! ### The two ends of an operation -/

section
variable {s : State} {i : Instr} {d : Reg} {b c : Operand}

/-- What an instruction that ends in `retire` answers: the value as a number, `pc` and frame (R63). -/
theorem execNext_of_retire {v : Word} {n x : Nat} {p : Cell} (h : exec i s = .next (retire s d v n)) (hv : v.toNat = x)
    (hp : s.next n = p) : ExecNext i s fun t => (t.reg d).toNat = x ∧ t.pc = p ∧ OnlyRegister d s t :=
  ⟨_, h, by simpa using hv, hp, onlyRegister_retire ..⟩

/-- A `mod` by 0 faults (R103, R136). -/
theorem execMod_zero (hc : (c.val s).toNat = 0) :
    execMod d b c s = .next (s.takeFault ⟨.divisionByZero, none⟩) := by
  rcases execMod_cases d b c s with ⟨_, e⟩ | ⟨hne, _⟩
  · exact e
  · exact absurd hc hne

/-- A `mod` by any other Word completes (R103). -/
theorem execMod_nonzero (hc : (c.val s).toNat ≠ 0) :
    execMod d b c s = .next (retire s d (narrow ((b.val s).toNat % (c.val s).toNat)) 3) := by
  rcases execMod_cases d b c s with ⟨hzero, _⟩ | ⟨_, e⟩
  · exact absurd hzero hc
  · exact e

end

/-- Settles O27: the fault of `mod` is one `takeFault`. -/
theorem modByZeroFaults : Obligations.ModByZeroFaults := fun _ _ _ _ hc =>
  ⟨_, execMod_zero hc, tookFault_takeFault ..⟩

/-- Settles O26: each operation is a `retire` of a Word whose number is known; a divisor 0 is O27, and the law of subtraction
is the clause on `add` with `32768 - k` for the second operand. -/
theorem aluResults : Obligations.AluResults := by
  intro d b c s
  have hadd : ExecNext (.add d b c) s fun t =>
      (t.reg d).toNat = ((b.val s).toNat + (c.val s).toNat) % 32768 ∧ t.pc = s.pc + 4 ∧ OnlyRegister d s t :=
    execNext_of_retire rfl (narrow_toNat _) rfl
  refine ⟨hadd, execNext_of_retire rfl (narrow_toNat _) rfl, fun hc => ?mod, fun hc => ?modZero,
    execNext_of_retire rfl (BitVec.toNat_and ..) rfl, execNext_of_retire rfl (BitVec.toNat_or ..) rfl,
    execNext_of_retire rfl (aluNot_toNat _) rfl, fun k _ hk hc => ?sub⟩
  case mod => exact execNext_of_retire (execMod_nonzero hc) (narrow_mod_toNat _ _) rfl
  case modZero =>
    obtain ⟨t, ht, hfault, -⟩ := modByZeroFaults d b c s hc
    exact ⟨t, ht, _, hfault, rfl⟩
  case sub =>
    obtain ⟨t, ht, hreg, -⟩ := hadd
    exact ⟨t, ht, by simpa only [hreg, hc] using add_complement_emod hk _⟩

end Sys2Proof.Machine
end

section
/-! PROOFS, family 44_memory_access: `rmem` of a Word and of a Cell that is none. -/

namespace Sys2Proof.Machine

section
variable {d : Reg} {b : Operand} {s : State}

/-- An `rmem` of a Word completes (R115). -/
theorem execRmem_word (hc : (Memory.read s.mem (b.val s).toNat).toNat < 32768) :
    execRmem d b s = .next (retire s d (low15 (Memory.read s.mem (b.val s).toNat)) 2) := by
  rcases execRmem_cases d b s with ⟨hge, _⟩ | ⟨_, e⟩
  · exact absurd hc (Nat.not_lt.2 hge)
  · exact e

/-- An `rmem` of a Cell that is no Word faults (R115, decision D5). -/
theorem execRmem_not_word (hc : 32768 ≤ (Memory.read s.mem (b.val s).toNat).toNat) :
    execRmem d b s = .next (s.takeFault ⟨.valueOutOfRange, some (Memory.read s.mem (b.val s).toNat)⟩) := by
  rcases execRmem_cases d b s with ⟨_, e⟩ | ⟨hlt, _⟩
  · exact e
  · exact absurd hc (Nat.not_le.2 hlt)

end

/-- Settles O29: a Cell below 32768 is the Word that the `retire` writes. -/
theorem rmemReadsTheCell : Obligations.RmemReadsTheCell := fun _ _ _ hc =>
  have hword := Nat.lt_succ_of_le hc
  execNext_of_retire (execRmem_word hword) (low15_toNat hword) rfl

/-- Settles O30: the fault of `rmem` is one `takeFault`. -/
theorem rmemOfNonWordFaults : Obligations.RmemOfNonWordFaults := fun _ _ _ hc =>
  ⟨_, execRmem_not_word hc, tookFault_takeFault ..⟩

end Sys2Proof.Machine
end

section
/-! PROOFS, family 45_system_io: `halt` and `noop`, the wait of `in`, and what leaves a clean halt. -/

namespace Sys2Proof.Machine

/-! ### `halt` and `noop` -/

/-- Settles O33: `halt` is a write of `pc` and one of the mode, neither of which fails. -/
theorem haltStopsCleanly : Obligations.HaltStopsCleanly := fun _ =>
  ⟨_, rfl, rfl, rfl, rfl, fun _ => rfl, rfl, fun _ => rfl, ⟨rfl, rfl⟩, rfl⟩

/-- Settles O37: `noop` is one `setPc`. -/
theorem noopAdvances : Obligations.NoopAdvances := fun _ => ⟨_, rfl, rfl, onlyPc_setPc ..⟩

/-- The mode and the host's state are what `SameExceptHost` leaves open. -/
theorem sameExceptHost_of_mode_host (s : State) (m : Mode) (d : Debugger) :
    SameExceptHost s { s with mode := m, host := d } :=
  ⟨⟨fun _ => rfl, rfl, fun _ => rfl, rfl⟩, rfl, rfl, rfl⟩

/-! ### The wait of `in` -/

/-- The state in which an `in` waits: inside the round, its trace line emitted once (R123, log entries 6 and 7). -/
def State.waitingIn (s : State) (d : Reg) : State :=
  { s with host := { s.host with
      inStep := true
      observer := s.host.observer ++ (if s.host.trace && !s.host.inStep then [⟨s.pc, .inp d, []⟩] else []) } }

section
variable {s : State} {d : Reg} {rest : List Cell}

/-- A step of an `in` that finds no input begins the wait or goes on with it (R123). -/
theorem step_of_in_without_input (hr : s.ready) (hf : s.fetch = .ok (.inp d, rest)) (hin : s.input = []) :
    step s = .next (s.waitingIn d) := by
  have hwaits : (Instr.inp d).waits s = true := by simp [Instr.waits, hin]
  rw [step_of_fetch_ok hr hf, exec_of_waits ((waits_traced ..).trans hwaits), settleResult]
  simp only [State.settle, hwaits, if_true, State.traced, State.waitingIn]
  split
  · rfl
  · simp

/-- A wait that goes on adds nothing to one that has begun (log entry 2). -/
theorem waitingIn_of_inStep (h : s.host.inStep = true) : s.waitingIn d = s := by
  simp [State.waitingIn, ← h]

/-- Inside the wait the host makes no check (R160). -/
theorem ready_of_inStep (hm : s.mode = .running) (h : s.host.inStep = true) : s.ready :=
  ⟨hm, by simp [State.cancelDue, h], by simp [State.breakpointDue, h]⟩

/-- The end of a round reaches the mode and the host's state only (R154). -/
theorem sameExceptHost_settle (s : State) (i : Instr) (u : State) : SameExceptHost u (s.settle i u) := by
  rcases settle_cases s i u with ⟨-, e⟩ | ⟨-, -, e⟩ | ⟨-, -, -, e⟩ | ⟨-, -, w, -, e⟩ <;> rw [e]
  · exact sameExceptHost_of_mode_host u _ _
  · exact sameExceptHost_of_mode_host u _ _
  · exact sameExceptHost_of_mode_host u _ _
  · exact sameExceptHost_of_mode_host u _ _

/-- A step of an `in` that finds input completes it, whatever the host traces or watches (R122). -/
theorem step_of_in_with_input {v : Word} {ws : List Word} (hr : s.ready) (hf : s.fetch = .ok (.inp d, rest))
    (hin : s.input = v :: ws) : StepNext s fun u => u.reg d = v ∧ u.pc = s.pc + 2 ∧ u.input = ws := by
  obtain ⟨t, hexec, hreg, hinput, -, hpc, -⟩ :=
    inTakesTheNextWord d (s.traced (.inp d)) v ws ((traced_input ..).trans hin)
  obtain ⟨⟨hregs, -, -, hpc'⟩, -, -, hinput'⟩ := sameExceptHost_settle s (.inp d) t
  refine ⟨s.settle (.inp d) t, by rw [step_of_fetch_ok hr hf, hexec, settleResult], ?_, ?_, hinput'.trans hinput⟩
  · exact (hregs d).trans hreg
  · rw [hpc', hpc, traced_pc]

end

/-- Settles O36: the wait leaves `pc`, memory and mode, so inside it, whatever the cancellation flag, the same `in` is ready
again and adds nothing, or takes the Word that has arrived. -/
theorem inWaitsForInput : Obligations.InWaitsForInput := by
  intro d s rest v hr hf hin
  have hmode : s.mode = .running := hr.1
  refine ⟨s.waitingIn d, step_of_in_without_input hr hf hin, sameExceptHost_of_mode_host s _ _, hmode, rfl, fun b => ?_⟩
  have hinside : ((s.waitingIn d).arrive (.cancel b)).host.inStep = true := rfl
  have hready : ((s.waitingIn d).arrive (.cancel b)).ready := ready_of_inStep hmode hinside
  refine ⟨hready, ?idle, ?completes⟩
  case idle =>
    have hstep := step_of_in_without_input hready hf hin
    rwa [waitingIn_of_inStep hinside] at hstep
  case completes =>
    have hinput : (((s.waitingIn d).arrive (.cancel b)).arrive (.word v)).input = [v] := congrArg (· ++ [v]) hin
    exact step_of_in_with_input (ready_of_inStep hmode hinside) hf hinput

/-! ### The clean halt -/

section
variable {s : State}

/-- In a clean halt the host may not change the state (R150). -/
theorem State.cleanHalt.mayMutate (h : s.cleanHalt) : s.mayMutate = false := by
  obtain ⟨hmode, hfault⟩ := h
  simp [State.mayMutate, hmode, hfault]

/-- What reaches the host's state only leaves a clean halt as it is. -/
theorem State.cleanHalt.of_host (h : s.cleanHalt) {t : State} (ht : ∃ d : Debugger, t = { s with host := d }) :
    t.cleanHalt ∧ SameMachineState s t ∧ SameStreams s t := by
  obtain ⟨d, rfl⟩ := ht
  obtain ⟨hmachine, -, hstreams⟩ := sameExceptHost_of_mode_host s s.mode d
  exact ⟨h, hmachine, hstreams⟩

/-- A clean halt serves the host (R19). -/
theorem State.cleanHalt.step (h : s.cleanHalt) : step s = .next s.serveHost := by
  simp only [Machine.step, h.1]

/-- Where the host may not change the state, serving an operation that is no `load`, or none, leaves all but the host's state
alone (R150). -/
theorem serveHost_of_not_mayMutate (h : s.mayMutate = false) (hb : ∀ b rest, s.host.script ≠ .loadImage b :: rest)
    (hn : ∀ n rest, s.host.script ≠ .loadSnapshot n :: rest) : ∃ d : Debugger, s.serveHost = { s with host := d } := by
  unfold State.serveHost
  split
  · exact ⟨s.host, rfl⟩
  · next c rest hs =>
    have hpopped : State.mayMutate { s with host := { s.host with script := rest } } = false := h
    exact answer_of_not_mayMutate hpopped c (fun b e => hb b rest (e ▸ hs)) (fun n e => hn n rest (e ▸ hs))

/-- The same of a direct operation, which is performed or, during the wait of an `in`, issued (log entry 4). -/
theorem arrive_direct_of_not_mayMutate (h : s.mayMutate = false) {c : Command} (hb : ∀ b, c ≠ .loadImage b)
    (hn : ∀ n, c ≠ .loadSnapshot n) : ∃ d : Debugger, s.arrive (.direct c) = { s with host := d } := by
  cases hi : s.host.inStep with
  | false => rw [arrive_direct hi]; exact answer_of_not_mayMutate h c hb hn
  | true => exact ⟨_, if_pos hi⟩

end

/-- Settles O51: in both ways of an operation, one that is no `load` reaches the host's state only. -/
theorem onlyALoadLeavesACleanHalt : Obligations.OnlyALoadLeavesACleanHalt := fun _ h =>
  ⟨fun hb hn => ⟨_, h.step, h.of_host (serveHost_of_not_mayMutate h.mayMutate hb hn)⟩,
    fun _ hb hn => h.of_host (arrive_direct_of_not_mayMutate h.mayMutate hb hn)⟩

end Sys2Proof.Machine
end

section
/-! PROOFS, family 60_exceptions: what one round of a ready core can do, that the host's state has no part in it, and the host
and debug interface. -/

namespace Sys2Proof.Machine

/-! ### One round of a ready core -/

/-- Everything the step of a ready core can leave (`round_of_step`): a fault of the decode phase or of the instruction, a wait, a
`halt`, or a completed instruction after which the core goes on or a watch stops it (R63, R138, R154, R156). -/
inductive Round (s : State) : State → Prop
  | undecoded {e : DecodeError} (hf : s.fetch = .error e) : Round s (s.takeFault (decodeRaise s.pc e))
  | faults {i : Instr} {rest : List Cell} {r : Raise} (hf : s.fetch = .ok (i, rest)) : Round s ((s.traced i).takeFault r)
  | waits {i : Instr} {rest : List Cell} (hf : s.fetch = .ok (i, rest)) (hw : i.waits s = true) :
      Round s { s.traced i with host := { (s.traced i).host with inStep := true } }
  | halts {rest : List Cell} (hf : s.fetch = .ok (.halt, rest)) :
      Round s (((s.traced .halt).setPc ((s.traced .halt).next 0)).setMode .halted)
  | goesOn {i : Instr} {rest : List Cell} {u : State} (hf : s.fetch = .ok (i, rest))
      (hc : Completes (s.traced i) i u) (hm : u.mode = .running) (hw : s.changedWatch u = none) : Round s u.endRound
  | watchStop {i : Instr} {rest : List Cell} {u : State} {w : Watch} (hf : s.fetch = .ok (i, rest))
      (hx : exec i (s.traced i) = .next u) (hc : Completes (s.traced i) i u) (hw : s.changedWatch u = some w) :
      Round s (u.endRound.stopWith (.watch w.reg (s.reg w.reg) (u.reg w.reg)))

section
variable {s t u : State} {i : Instr} {rest : List Cell}

/-- A wait stays inside the round (R123). -/
theorem settle_of_waits (hw : i.waits s = true) :
    s.settle i u = { u with host := { u.host with inStep := true } } := by
  simp only [State.settle, hw, if_true]

/-- A fault and a `halt` end the loop with nothing added (R154). -/
theorem settle_of_not_running (hw : i.waits s = false) (hm : u.mode ≠ .running) : s.settle i u = u := by
  simp [State.settle, hw, hm]

/-- The step of a ready core is a `Round`: it waits, or its instruction faults or completes. -/
theorem round_of_step (hr : s.ready) (h : step s = .next t) : Round s t := by
  rcases step_ready_cases hr h with ⟨e, hf, rfl⟩ | ⟨i, rest, u, hf, hx, rfl⟩
  · exact .undecoded hf
  cases hw : i.waits s with
  | true =>
    cases (exec_of_waits ((waits_traced ..).trans hw)).symm.trans hx
    rw [settle_of_waits hw]
    exact .waits hf hw
  | false =>
    rcases exec_cases hx with ⟨r, rfl⟩ | ⟨hw', -⟩ | hc
    · rw [settle_of_not_running hw (by simp)]
      exact .faults hf
    · cases hw.symm.trans ((waits_traced ..).symm.trans hw')
    · rcases hc.mode with hm | rfl
      · have hrun : u.mode = .running := hm.trans ((traced_mode ..).trans hr.1)
        rcases settle_cases s i u with ⟨hw', -⟩ | ⟨-, hm', -⟩ | ⟨-, -, hnone, e⟩ | ⟨-, -, w, hsome, e⟩
        · cases hw.symm.trans hw'
        · exact absurd hrun hm'
        · rw [e]; exact .goesOn hf hc hrun hnone
        · rw [e]; exact .watchStop hf hx hc hsome
      · cases hc with
        | writes v hd => cases hd
        | halt => rw [settle_of_not_running hw (by simp)]; exact .halts hf

/-! ### What a round leaves of the host's state -/

/-- The trace line is all that tracing adds to the host's state. -/
@[simp] theorem traced_breakpoints (s : State) (i : Instr) : (s.traced i).host.breakpoints = s.host.breakpoints := by
  unfold State.traced; split <;> rfl

/-- No round sets or removes a breakpoint. -/
theorem Round.hasBreakpoint (h : Round s t) : t.host.hasBreakpoint = s.host.hasBreakpoint := by
  have hb : t.host.breakpoints = s.host.breakpoints := by
    cases h with
    | undecoded => rfl
    | faults | waits | halts => exact traced_breakpoints ..
    | goesOn _ hc | watchStop _ _ hc => exact (congrArg Debugger.breakpoints hc.host).trans (traced_breakpoints ..)
  funext a
  simp only [Debugger.hasBreakpoint, hb]

/-- A round that has decoded its instruction leaves the observer stream with that instruction's line (R158). -/
theorem Round.observer (h : Round s t) (hf : s.fetch = .ok (i, rest)) :
    t.host.observer = (s.traced i).host.observer := by
  cases h with
  | undecoded hf' => cases hf.symm.trans hf'
  | faults hf' | waits hf' | halts hf' => cases hf.symm.trans hf'; rfl
  | goesOn hf' hc | watchStop hf' _ hc =>
    cases hf.symm.trans hf'
    exact (congrArg Debugger.observer hc.host :)

/-- A round whose fetch fails leaves the observer stream as it is (log entry 6). -/
theorem Round.observer_of_error {e : DecodeError} (h : Round s t) (hf : s.fetch = .error e) :
    t.host.observer = s.host.observer := by
  cases h with
  | undecoded => rfl
  | faults hf' | waits hf' | halts hf' | goesOn hf' | watchStop hf' => cases hf.symm.trans hf'

/-- After a round that completes an instruction and leaves the core `Running`, a breakpoint at the new `pc` is due (R155). -/
theorem Round.breakpointDue (h : Round s t) (hm : t.mode = .running) (hin : t.host.inStep = false) :
    t.breakpointDue = t.host.hasBreakpoint t.pc := by
  cases h with
  | undecoded | faults | halts | watchStop => cases hm
  | waits => cases hin
  | goesOn => rfl

end

/-! ### The host's state has no part in execution -/

/-- A state with another host. -/
def State.withHost (s : State) (d : Debugger) : State := { s with host := d }

section
variable {s s' t t' u : State} {d : Debugger} {i : Instr}

/-- An `in` without input waits (R123). -/
theorem execIn_nil (hs : s.input = []) (r : Reg) : execIn r s = .next s := by
  simp only [execIn, hs]

/-- An `in` with input completes (R122). -/
theorem execIn_cons {v : Word} {rest : List Word} (hs : s.input = v :: rest) (r : Reg) :
    execIn r s = .next (retire { s with input := rest } r v 1) := by
  simp only [execIn, hs]

/-- Tracing changes the host only (R158). -/
theorem traced_eq_withHost (s : State) (i : Instr) : ∃ d, s.traced i = s.withHost d := by
  unfold State.traced
  split
  · exact ⟨_, rfl⟩
  · exact ⟨s.host, rfl⟩

/-- The meaning of an instruction under another host is its meaning, with that host. -/
theorem exec_withHost (h : exec i s = .next t) (d : Debugger) : exec i (s.withHost d) = .next (t.withHost d) := by
  cases i with
  | pop r =>
    change execPop r s = _ at h
    rcases execPop_cases r s with ⟨hs, e⟩ | ⟨c, rest, hs, ⟨hc, e⟩ | ⟨hc, e⟩⟩ <;> cases e.symm.trans h
    · exact execPop_nil (s := s.withHost d) hs r
    · exact execPop_not_word (s := s.withHost d) hs hc r
    · exact execPop_word (s := s.withHost d) hs hc r
  | ret =>
    change execRet s = _ at h
    rcases execRet_cases s with ⟨hs, e⟩ | ⟨c, rest, hs, e⟩ <;> cases e.symm.trans h
    · exact execRet_nil (s := s.withHost d) hs
    · exact execRet_cons (s := s.withHost d) hs
  | inp r =>
    change execIn r s = _ at h
    rcases execIn_cases r s with ⟨hs, e⟩ | ⟨v, rest, hs, e⟩ <;> cases e.symm.trans h
    · exact execIn_nil (s := s.withHost d) hs r
    · exact execIn_cons (s := s.withHost d) hs r
  | mod r b c =>
    change execMod r b c s = _ at h
    rcases execMod_cases r b c s with ⟨hc, e⟩ | ⟨hc, e⟩ <;> cases e.symm.trans h
    · exact execMod_zero (s := s.withHost d) hc
    · exact execMod_nonzero (s := s.withHost d) hc
  | rmem r b =>
    change execRmem r b s = _ at h
    rcases execRmem_cases r b s with ⟨hc, e⟩ | ⟨hc, e⟩ <;> cases e.symm.trans h
    · exact execRmem_not_word (s := s.withHost d) hc
    · exact execRmem_word (s := s.withHost d) hc
  | wmem a b => cases (execWmem_eq a b s).symm.trans h; exact execWmem_eq a b (s.withHost d)
  | jt a b => cases (execJt_eq a b s).symm.trans h; exact execJt_eq a b (s.withHost d)
  | jf a b => cases (execJf_eq a b s).symm.trans h; exact execJf_eq a b (s.withHost d)
  | _ => cases h; rfl

/-- What a ready core's step leaves, but for mode and host, is its decode fault or its instruction's outcome, with no trace and no
check in it (R158, R181). -/
theorem step_sameExceptHost_exec (hr : s.ready) (h : step s = .next t) :
    (∃ e, s.fetch = .error e ∧ t = s.takeFault (decodeRaise s.pc e)) ∨
    (∃ i rest u, s.fetch = .ok (i, rest) ∧ exec i s = .next u ∧ SameExceptHost u t) := by
  rcases step_ready_cases hr h with hfault | ⟨i, rest, v, hf, hx, rfl⟩
  · exact .inl hfault
  · obtain ⟨d, hd⟩ := traced_eq_withHost s i
    obtain ⟨u, hu, -⟩ := exec_next_host i s
    rw [hd, exec_withHost hu d] at hx
    cases hx
    exact .inr ⟨i, rest, u, hf, hu, sameExceptHost_settle s i (u.withHost d)⟩

/-- States that agree with one state agree with each other. -/
theorem SameExceptHost.euclidean (h : SameExceptHost u t) (h' : SameExceptHost u t') : SameExceptHost t t' := by
  obtain ⟨⟨hregs, hstack, hmem, hpc⟩, hfault, hout, hin⟩ := h
  obtain ⟨⟨hregs', hstack', hmem', hpc'⟩, hfault', hout', hin'⟩ := h'
  exact ⟨⟨fun r => (hregs' r).trans (hregs r).symm, hstack'.trans hstack.symm, fun a => (hmem' a).trans (hmem a).symm,
    hpc'.trans hpc.symm⟩, hfault'.trans hfault.symm, hout'.trans hout.symm, hin'.trans hin.symm⟩

/-- Under another host a ready core's step leaves the same (R181). -/
theorem step_withHost (hr : s.ready) (hr' : (s.withHost d).ready) (h : step s = .next t)
    (h' : step (s.withHost d) = .next t') : SameExceptHost t t' := by
  have hfetch : (s.withHost d).fetch = s.fetch := rfl
  rcases step_sameExceptHost_exec hr h with ⟨e, hf, rfl⟩ | ⟨i, rest, u, hf, hu, hsame⟩ <;>
    rcases step_sameExceptHost_exec hr' h' with ⟨e', hf', rfl⟩ | ⟨i', rest', u', hf', hu', hsame'⟩ <;>
    cases hf.symm.trans (hfetch.symm.trans hf')
  · exact sameExceptHost_of_mode_host (s.takeFault (decodeRaise s.pc e)) _ _
  · cases (exec_withHost hu d).symm.trans hu'
    exact hsame.euclidean hsame'

/-- Registers that read alike are alike (R12). -/
theorem regFile_ext {x y : RegFile} (h : ∀ r, x.get r = y.get r) : x = y := by
  cases x
  rw [RegFile.mk.injEq]
  exact ⟨h .r0, h .r1, h .r2, h .r3, h .r4, h .r5, h .r6, h .r7⟩

/-- Of two states alike but for the host, in canonical memory, one is the other with its own host. -/
theorem SameExceptHost.eq_withHost (h : SameExceptHost s s') (hw : s.mem.wf = true) (hw' : s'.mem.wf = true)
    (hm : s'.mode = s.mode) : s' = s.withHost s'.host := by
  obtain ⟨⟨hregs, hstack, hmem, hpc⟩, hfault, hout, hin⟩ := h
  have hregs : s'.regs = s.regs := regFile_ext hregs
  have hmem : s'.mem = s.mem := memory_ext hw' hw hmem
  simp only [State.withHost, ← hregs, ← hstack, ← hmem, ← hpc, ← hfault, ← hout, ← hin, ← hm]

end

/-- Settles O13: the one state is the other with its own host, under which the step leaves the same. -/
theorem hostStateDoesNotInfluenceExecution : Obligations.HostStateDoesNotInfluenceExecution := by
  intro s s' t t' hr hr' hw hw' hsame h h'
  have hs' : s' = s.withHost s'.host := hsame.eq_withHost hw hw' (hr'.1.trans hr.1.symm)
  rw [hs'] at hr' h'
  exact step_withHost hr hr' h h'

/-! ### Every step answers, and the stops before an instruction -/

section
variable {s : State}

/-- An instruction cycle answers a next state: its fetch fails, or its instruction has an outcome (R130). -/
theorem cycle_next (s : State) : ∃ t, cycle s = .next t := by
  rw [cycle]
  split
  · exact ⟨_, rfl⟩
  · next i rest hf =>
    obtain ⟨u, hu, -⟩ := exec_next_host i (s.traced i)
    exact ⟨_, by rw [hu, settleResult]⟩

/-- The check of the cancellation flag comes first (R154, R160). -/
theorem step_of_cancelDue (hm : s.mode = .running) (hc : s.cancelDue = true) : step s = .next (s.stopWith .cancelled) := by
  simp only [step, hm, runRound, hc, if_true]

/-- The check of the breakpoints comes next (R154, R155). -/
theorem step_of_breakpointDue (hm : s.mode = .running) (hc : s.cancelDue = false) (hb : s.breakpointDue = true) :
    step s = .next (s.stopWith (.breakpoint s.pc)) := by
  simp [step, hm, runRound, hc, hb]

/-- A stop reaches the mode and the host's state only (R155, R156, R160). -/
theorem sameExceptHost_stopWith (s : State) (q : StopReport) : SameExceptHost s (s.stopWith q) :=
  sameExceptHost_of_mode_host s _ _

/-- Outside `Running` a step serves the host (R19). -/
theorem step_of_not_running (hm : s.mode ≠ .running) : step s = .next s.serveHost := by
  rw [step]
  split
  · exact absurd ‹_› hm
  · rfl
  · rfl

end

/-- Settles O10: outside `Running` the host is served; in it the core is stopped by a check or does a cycle. -/
theorem everyStepAnswersANextState : Obligations.EveryStepAnswersANextState := by
  intro s
  by_cases hm : s.mode = .running
  · cases hc : s.cancelDue with
    | true => exact ⟨_, step_of_cancelDue hm hc, trivial⟩
    | false =>
      cases hb : s.breakpointDue with
      | true => exact ⟨_, step_of_breakpointDue hm hc hb, trivial⟩
      | false =>
        obtain ⟨t, ht⟩ := cycle_next s
        exact ⟨t, (step_of_ready ⟨hm, hc, hb⟩).trans ht, trivial⟩
  · exact ⟨_, step_of_not_running hm, trivial⟩

/-- Settles O60: outside the wait of `in`, a host that has the flag makes the check due. -/
theorem cancellationStopsBetweenInstructions : Obligations.CancellationStopsBetweenInstructions := by
  intro s hm hin hflag
  obtain ⟨t, ht, -⟩ := everyStepAnswersANextState s
  refine ⟨t, ht, fun hhas => ?_⟩
  have hdue : s.cancelDue = true := by simp [State.cancelDue, hin, hflag, hhas]
  cases (step_of_cancelDue hm hdue).symm.trans ht
  obtain ⟨hmachine, hfault, hstreams⟩ := sameExceptHost_stopWith s .cancelled
  exact ⟨rfl, hmachine, hstreams, hfault⟩

/-! ### Faults and the return from one -/

section
variable {s t : State}

/-- A round that leaves a fault record where there was none is one `takeFault`, under the host that the trace leaves (R138). -/
theorem Round.takeFault_of_fault (h : Round s t) (hs : s.fault = none) (ht : t.fault ≠ none) :
    ∃ d r, t = (s.withHost d).takeFault r := by
  cases h with
  | undecoded => exact ⟨s.host, _, rfl⟩
  | faults =>
    obtain ⟨d, hd⟩ := traced_eq_withHost s _
    exact ⟨d, _, by rw [hd]⟩
  | waits | halts => exact absurd ((traced_fault ..).trans hs) ht
  | goesOn _ hc | watchStop _ _ hc => exact absurd (hc.fault.trans ((traced_fault ..).trans hs)) ht

/-- The host may `continue()` after a fault (R141, R150). -/
theorem mayMutate_of_fault (hm : s.mode = .halted) (hf : s.fault ≠ none) : s.mayMutate = true := by
  simpa [State.mayMutate, hm, Option.isSome_iff_ne_none] using hf

/-- `continue()` is accepted where the host may change the state (R154). -/
theorem perform_resume_ok (h : s.mayMutate = true) : perform .resume s = (s.resume, .ok) := by
  simp only [perform, continueRun, h, if_true, changed]

/-- The start of `continue()` does not touch the Machine State or the streams (R141, R154). -/
theorem resume_same (s : State) : SameMachineState s s.resume ∧ SameStreams s s.resume :=
  ⟨⟨fun _ => rfl, rfl, fun _ => rfl, rfl⟩, rfl, rfl⟩

/-- The return from a fault gives back the state that took it, under another host (R141). -/
theorem resume_takeFault (hm : s.mode = .running) (hf : s.fault = none) (r : Raise) :
    ∃ d, (s.takeFault r).resume = s.withHost d :=
  ⟨(s.takeFault r).resume.host, by simp only [State.withHost, hm, hf]; rfl⟩

/-- After `continue()` a core with no breakpoint at `pc` and no cancellation is ready (R154). -/
theorem resume_ready (hb : s.host.hasBreakpoint s.pc = false) (hc : s.host.cancel = false) : s.resume.ready :=
  ⟨rfl, by simp [State.cancelDue, hc], by simpa [State.breakpointDue, Debugger.hasBreakpoint] using fun _ => hb⟩

end

/-- Settles O11: the step is one `takeFault` under another host. -/
theorem faultLeavesTheMachineStateUntouched : Obligations.FaultLeavesTheMachineStateUntouched := by
  intro s t hr hs h ht
  obtain ⟨d, r, rfl⟩ := (round_of_step hr h).takeFault_of_fault hs ht
  obtain ⟨hfault, hmode, hmachine, hstreams, -⟩ := tookFault_takeFault (s.withHost d) r
  exact ⟨hmode, hmachine, hstreams, _, _, hfault⟩

/-- Settles O50: the resumed core is the one that took the fault, under another host. -/
theorem continueAfterAFaultReExecutes : Obligations.ContinueAfterAFaultReExecutes := by
  intro s t f hr hs h ht hb hc
  have hne : t.fault ≠ none := by simp [ht]
  have hready : t.resume.ready := resume_ready hb hc
  obtain ⟨v, hv, -⟩ := everyStepAnswersANextState t.resume
  have hmay : t.mayMutate = true := mayMutate_of_fault (faultLeavesTheMachineStateUntouched s t hr hs h hne).1 hne
  obtain ⟨hmachine, hstreams⟩ := resume_same t
  refine ⟨t.resume, perform_resume_ok hmay, rfl, rfl, hmachine, hstreams, v, hv, ?_⟩
  obtain ⟨d, hd⟩ : ∃ d, t.resume = s.withHost d := by
    obtain ⟨d, r, rfl⟩ := (round_of_step hr h).takeFault_of_fault hs hne
    exact resume_takeFault (s := s.withHost d) hr.1 hs r
  rw [hd] at hready hv
  obtain ⟨-, hfault, -⟩ := step_withHost hr hready h hv
  exact hfault.trans ht

/-! ### Breakpoints -/

section
variable {s : State}

/-- A breakpoint is due outside the wait of `in`, when its visit was not reported and it is set at `pc` (R154, R155). -/
theorem breakpointDue_iff : s.breakpointDue = true ↔
    s.host.inStep = false ∧ s.host.skip = false ∧ s.host.hasBreakpoint s.pc = true := by
  simp [State.breakpointDue, and_assoc]

/-- `continue()` after a stop at a breakpoint goes past it: the check at this `pc` is not made again (R155, decision D22). -/
theorem resume_stopWith_breakpoint_ready (hc : s.cancelDue = false) (hb : s.breakpointDue = true) :
    (s.stopWith (.breakpoint s.pc)).resume.ready := by
  obtain ⟨hin, -, -⟩ := breakpointDue_iff.1 hb
  have hskip : (s.stopWith (.breakpoint s.pc)).resume.host.skip = true := by simp [Debugger.reportedAt]
  refine ⟨rfl, ?_, by simp only [State.breakpointDue, hskip, Bool.not_true, Bool.and_false, Bool.false_and]⟩
  simpa [State.cancelDue, hin] using hc

end

/-- Settles O55: the round after the stop is at another `pc`, or its breakpoints, which are those before, are due, or it waits. -/
theorem breakpointStopsOncePerVisit : Obligations.BreakpointStopsOncePerVisit := by
  refine ⟨fun s hm hc hb => ?stops, fun s hm => ?accepted, fun s t hr h => (round_of_step hr h).breakpointDue⟩
  case accepted => exact ⟨perform_resume_stopped hm, rfl, resume_same s⟩
  case stops =>
    have hready := resume_stopWith_breakpoint_ready hc hb
    obtain ⟨-, -, hset⟩ := breakpointDue_iff.1 hb
    obtain ⟨hmachine, -, hstreams⟩ := sameExceptHost_stopWith s (.breakpoint s.pc)
    refine ⟨_, step_of_breakpointDue hm hc hb, rfl, rfl, hmachine, hstreams, perform_resume_stopped rfl, hready,
      fun v hv hrun => ?_⟩
    have hround := round_of_step hready hv
    by_cases hpc : v.pc = s.pc
    · cases hin : v.host.inStep with
      | true => exact .inr (.inr rfl)
      | false =>
        refine .inr (.inl ?_)
        rw [hround.breakpointDue hrun hin, hround.hasBreakpoint, hpc]
        exact hset
    · exact .inl hpc

/-! ### Watches -/

section
variable {s t : State}

/-- Of all rounds a watch stop alone leaves the core `Stopped` (R154, R156). -/
theorem Round.watchStop_of_stopped (h : Round s t) (hr : s.ready) (hm : t.mode = .stopped) :
    ∃ i rest u w, s.fetch = .ok (i, rest) ∧ exec i (s.traced i) = .next u ∧ s.changedWatch u = some w ∧
      t = u.endRound.stopWith (.watch w.reg (s.reg w.reg) (u.reg w.reg)) := by
  cases h with
  | undecoded | faults | halts => cases hm
  | waits => cases ((traced_mode ..).trans hr.1).symm.trans hm
  | goesOn _ _ hrun => cases hrun.symm.trans hm
  | watchStop hf hx _ hw => exact ⟨_, _, _, _, hf, hx, hw, rfl⟩

/-- The watch that a stop reports is set, and its register changed (R156). -/
theorem changedWatch_some {w : Watch} (h : s.changedWatch t = some w) : w ∈ s.host.watches ∧ t.reg w.reg ≠ s.reg w.reg := by
  have hp := List.find?_some h
  simp only [Bool.and_eq_true, bne_iff_ne] at hp
  exact ⟨List.mem_of_find?_eq_some h, hp.2.symm⟩

/-- Where every watch is enabled, none is reported only when no watched register changed (R156, R157). -/
theorem changedWatch_none (hs : s.Inv) (h : s.changedWatch t = none) {w : Watch} (hw : w ∈ s.host.watches) :
    t.reg w.reg = s.reg w.reg := by
  have hp := List.find?_eq_none.1 h w hw
  rw [hs.watchesEnabled w hw, Bool.true_and, bne_iff_ne] at hp
  exact (Classical.not_not.1 hp).symm

/-- A watched register that a round changes makes it a watch stop: a fault, a wait and a `halt` change no register (R156). -/
theorem Round.stopped_of_changed (h : Round s t) (hs : s.Inv) {w : Watch} (hw : w ∈ s.host.watches)
    (hne : t.reg w.reg ≠ s.reg w.reg) : t.mode = .stopped := by
  cases h with
  | undecoded => exact absurd rfl hne
  | faults | waits | halts => exact absurd (traced_reg ..) hne
  | goesOn _ _ _ hnone => exact absurd (changedWatch_none hs hnone hw) hne
  | watchStop => rfl

end

/-- Settles O56: the round is a watch stop when it ends `Stopped`, and when it changed a watched register. -/
theorem watchStopsExactlyOnAChange : Obligations.WatchStopsExactlyOnAChange := by
  intro s t hs hr h
  have hround := round_of_step hr h
  have hreport : t.mode = .stopped → ∃ i rest u, s.fetch = .ok (i, rest) ∧ exec i (s.traced i) = .next u ∧
      SameMachineState u t ∧ ∃ w ∈ s.host.watches, t.reg w.reg ≠ s.reg w.reg ∧
        t.host.report = some (.watch w.reg (s.reg w.reg) (t.reg w.reg)) := fun hm => by
    obtain ⟨i, rest, u, w, hf, hx, hw, rfl⟩ := hround.watchStop_of_stopped hr hm
    obtain ⟨hmem, hne⟩ := changedWatch_some hw
    exact ⟨i, rest, u, hf, hx, ⟨fun _ => rfl, rfl, fun _ => rfl, rfl⟩, w, hmem, hne, rfl⟩
  refine ⟨⟨fun hm => ?_, fun ⟨w, hw, hne⟩ => hround.stopped_of_changed hs hw hne⟩, hreport⟩
  obtain ⟨-, -, -, -, -, -, w, hw, hne, -⟩ := hreport hm
  exact ⟨w, hw, hne⟩

/-- Settles O57: what a watch stop reports is no breakpoint, so `continue()` does not skip the check. -/
theorem breakpointFiresAfterAWatchStop : Obligations.BreakpointFiresAfterAWatchStop := by
  intro s t hr h hm hb
  refine ⟨perform_resume_stopped hm, ?_⟩
  obtain ⟨i, rest, u, w, -, -, -, rfl⟩ := (round_of_step hr h).watchStop_of_stopped hr hm
  exact hb

/-! ### Setting triggers, and the trace -/

section
variable {s : State}

/-- After `set_breakpoint` there is a breakpoint at the address (R157). -/
theorem setBreakpoint_any (a : Cell) (s : State) : (setBreakpoint a s).host.breakpoints.any (·.addr == a) = true := by
  unfold setBreakpoint
  split
  · assumption
  · simp

/-- After `set_watch` there is a watch of the register (R157). -/
theorem setWatch_any (r : Reg) (s : State) : (setWatch r s).host.watches.any (·.reg == r) = true := by
  unfold setWatch
  split
  · assumption
  · simp

/-- A breakpoint that is set already is not set again (R157). -/
theorem setBreakpoint_of_any {a : Cell} (h : s.host.breakpoints.any (·.addr == a) = true) : setBreakpoint a s = s := if_pos h

/-- A watch that is set already is not set again (R157). -/
theorem setWatch_of_any {r : Reg} (h : s.host.watches.any (·.reg == r) = true) : setWatch r s = s := if_pos h

/-- `set_breakpoint` does not touch the Machine State (R157). -/
theorem sameMachineState_setBreakpoint (a : Cell) (s : State) : SameMachineState s (setBreakpoint a s) := by
  unfold setBreakpoint
  split <;> exact ⟨fun _ => rfl, rfl, fun _ => rfl, rfl⟩

/-- `set_watch` does not touch the Machine State (R157). -/
theorem sameMachineState_setWatch (r : Reg) (s : State) : SameMachineState s (setWatch r s) := by
  unfold setWatch
  split <;> exact ⟨fun _ => rfl, rfl, fun _ => rfl, rfl⟩

/-- A breakpoint that the invariant knows of is enabled, so it is a breakpoint of the check (R155, R157). -/
theorem State.Inv.hasBreakpoint (hs : s.Inv) {a : Cell} (h : s.host.breakpoints.any (·.addr == a) = true) :
    s.host.hasBreakpoint a = true := by
  obtain ⟨b, hb, haddr⟩ := List.any_eq_true.1 h
  exact List.any_eq_true.2 ⟨b, hb, by simp [hs.breakpointsEnabled b hb, haddr]⟩

end

/-- Settles O58: the trigger is there afterwards, enabled since the invariant is kept, and a second call finds it. -/
theorem settingATriggerIsIdempotent : Obligations.SettingATriggerIsIdempotent := by
  intro s a r hs
  have hbreak := setBreakpoint_any a s
  have hwatch := setWatch_any r s
  refine ⟨(hs.setBreakpoint a).hasBreakpoint hbreak, setBreakpoint_of_any hbreak, ?_, setWatch_of_any hwatch,
    sameMachineState_setBreakpoint a s, sameMachineState_setWatch r s⟩
  obtain ⟨w, hw, hreg⟩ := List.any_eq_true.1 hwatch
  exact ⟨w, hw, beq_iff_eq.1 hreg, (hs.setWatch r).watchesEnabled w hw⟩

/-- With trace on, the line of an instruction is emitted when it begins, and not again while it waits (R158, log entry 6). -/
theorem traced_observer {s : State} (h : s.host.trace = true) (i : Instr) : (s.traced i).host.observer = s.host.observer ++
    (if s.host.inStep then [] else [⟨s.pc, i, i.valueOperands.map fun o => o.val s⟩]) := by
  cases hin : s.host.inStep <;> simp [State.traced, h, hin]

/-- Settles O59: a round leaves the observer stream as the trace of its instruction does. -/
theorem traceEmitsOneLinePerInstruction : Obligations.TraceEmitsOneLinePerInstruction := by
  refine ⟨fun s t i rest hr htrace hf h => ?on, fun s t hr htrace h => ?off, fun s => rfl⟩
  case on => rw [(round_of_step hr h).observer hf, traced_observer htrace]
  case off =>
    have hround := round_of_step hr h
    cases hf : s.fetch with
    | error e => exact hround.observer_of_error hf
    | ok p => rw [hround.observer hf, traced_of_not_trace htrace]

/-! ### Host writes and inspection -/

section
variable {s : State}

/-- A register number and a Word are accepted where the host may change the state (R153). -/
theorem perform_writeRegister_ok (h : s.mayMutate = true) (r : Reg) {v : Nat} (hv : v < 32768) :
    perform (.writeRegister r.num v) s = (s.setReg r (BitVec.ofNat 15 v), .ok) := by
  simp [perform, writeRegister, h, hv, changed]

/-- Writing a register changes nothing else. -/
theorem onlyRegister_setReg (s : State) (r : Reg) (v : Word) : OnlyRegister r s (s.setReg r v) :=
  ⟨fun q hq => by simp [hq], rfl, fun _ => rfl, ⟨rfl, rfl, rfl⟩, rfl, rfl⟩

/-- An address and a Cell are accepted where the host may change the state (R153). -/
theorem perform_writeMemory_ok (h : s.mayMutate = true) {a w : Nat} (ha : a < 32768) (hw : w < 65536) :
    perform (.writeMemory a w) s = (s.setMem (Memory.write s.mem a (BitVec.ofNat 16 w)), .ok) := by
  simp [perform, writeMemory, h, Nat.not_le.2 ha, hw, changed]

/-- Elsewhere, and out of range, `write_register` is refused (R153). -/
theorem perform_writeRegister_refused {n v : Nat} (h : s.mayMutate = false ∨ 7 < n ∨ 32767 < v) :
    ∃ e, perform (.writeRegister n v) s = (s, .refused e) := by
  cases hm : s.mayMutate with
  | false => exact ⟨.notAllowed, by simp [perform, writeRegister, hm, changed]⟩
  | true =>
    cases hreg : Reg.ofNum n with
    | none => exact ⟨.badRegister n, by simp [perform, writeRegister, hm, hreg, changed]⟩
    | some r =>
      have hn : n < 8 := reg_ofNum_some hreg ▸ reg_num_lt r
      have hv : ¬ v < 32768 := by simp only [hm, Bool.true_eq_false, false_or] at h; omega
      exact ⟨.badValue v, by simp [perform, writeRegister, hm, hreg, hv, changed]⟩

/-- Elsewhere, and out of range, `write_memory` is refused (R153). -/
theorem perform_writeMemory_refused {a w : Nat} (h : s.mayMutate = false ∨ 32767 < a ∨ 65535 < w) :
    ∃ e, perform (.writeMemory a w) s = (s, .refused e) := by
  cases hm : s.mayMutate with
  | false => exact ⟨.notAllowed, by simp [perform, writeMemory, hm, changed]⟩
  | true =>
    by_cases ha : 32768 ≤ a
    · exact ⟨.outOfBounds a, by simp [perform, writeMemory, hm, ha, changed]⟩
    · have hw : ¬ w < 65536 := by simp only [hm, Bool.true_eq_false, false_or] at h; omega
      exact ⟨.badValue w, by simp [perform, writeMemory, hm, ha, hw, changed]⟩

/-- While `Running` and after a clean halt the host may not change the state (R150). -/
theorem mayMutate_false_or {p : Prop} (h : s.mode = .running ∨ s.cleanHalt ∨ p) : s.mayMutate = false ∨ p := by
  rcases h with hm | hc | hp
  · exact .inl (mayMutate_of_running hm)
  · exact .inl hc.mayMutate
  · exact .inr hp

/-- Outside `Running` an inspection answers the Cell, or that there is none, and changes nothing (R153). -/
theorem perform_inspectMemory (h : s.mode ≠ .running) (a : Nat) : perform (.inspectMemory a) s =
    (s, if a < 32768 then .cell (Memory.read s.mem a) else .refused (.outOfBounds a)) := by
  by_cases ha : a < 32768
  · simp [perform, inspectMemory, h, ha, Nat.not_le.2 ha]
  · simp [perform, inspectMemory, h, ha, Nat.le_of_not_lt ha]

end

/-- Settles O52: an accepted write is one `setReg` or one `setMem`. -/
theorem hostWritesChangeOneRegisterOrCell : Obligations.HostWritesChangeOneRegisterOrCell := by
  refine fun s r v a w => ⟨fun hwf hmode hv ha hw => ?writes, fun hmode => ?inspects⟩
  case writes =>
    have hmay : s.mayMutate = true := by
      rcases hmode with hm | ⟨hm, hf⟩
      · simp only [State.mayMutate, hm]
      · exact mayMutate_of_fault hm hf
    constructor
    · refine ⟨_, perform_writeRegister_ok hmay r hv, ?_, onlyRegister_setReg .., rfl⟩
      rw [setReg_reg, if_pos rfl, BitVec.toNat_ofNat, Nat.mod_eq_of_lt hv]
    · refine ⟨_, perform_writeMemory_ok hmay ha hw, ?_, fun x hx => read_write_of_ne hwf hx, fun _ => rfl, rfl, rfl,
        ⟨rfl, rfl, rfl⟩, rfl, rfl⟩
      rw [setMem_mem, read_write_self hwf, BitVec.toNat_ofNat, Nat.mod_eq_of_lt hw]
  case inspects =>
    have hne : s.mode ≠ .running := by rcases hmode with hm | hm <;> simp [hm]
    rw [perform_inspectMemory hne]
    exact ⟨fun ha => by rw [if_pos ha], fun ha => by rw [if_neg (Nat.not_lt.2 ha)]⟩

/-- Settles O53: in the two modes the host may not change the state, and out of range a write is refused in any. -/
theorem outOfRangeHostWritesChangeNothing : Obligations.OutOfRangeHostWritesChangeNothing := by
  intro s n v
  exact ⟨fun h => perform_writeRegister_refused (mayMutate_false_or h),
    fun h => perform_writeMemory_refused (mayMutate_false_or h)⟩

/-! ### `save` and `load` -/

section
variable {s : State}

/-- Loading the saved registers gives the registers back (R159). -/
theorem regFile_ofCells_cells (x : RegFile) : RegFile.ofCells x.cells = x := by
  cases x
  simp [RegFile.ofCells, RegFile.cells]

/-- The saved registers are Words (R151). -/
theorem regFile_cells_lt (x : RegFile) : ∀ c ∈ x.cells, c.toNat < 32768 := by
  have hword (w : Word) : (zext16 w).toNat < 32768 := zext16_toNat w ▸ w.isLt
  simp only [RegFile.cells, List.forall_mem_cons, hword, true_and]
  exact List.forall_mem_nil _

theorem toCells_length (m : Memory) (n : Nat) : (m.toCells n).length = n := by
  rw [Memory.toCells, List.length_map, List.length_range]

/-- Loading the saved Cells gives the memory back (R159). -/
theorem ofCells_toCells {m : Memory} (hm : m.wf = true) : Memory.ofCells 0 (m.toCells 32768) = m := by
  have hlength : 0 + (m.toCells 32768).length ≤ Config.memCells :=
    Nat.le_of_eq ((Nat.zero_add _).trans (toCells_length m 32768))
  refine memory_ext (wfFrom_ofCells _ 0 hlength) hm fun a => ?_
  rw [read_ofCells, if_pos (Nat.zero_le a), Nat.sub_zero, List.getD_eq_getElem?_getD]
  by_cases ha : a < 32768
  · have hget : (m.toCells 32768)[a]? = some (Memory.read m a) := by
      rw [Memory.toCells, List.getElem?_map, List.getElem?_range ha, Option.map_some]
    rw [hget, Option.getD_some]
  · rw [List.getElem?_eq_none (by rw [toCells_length]; omega), read_above (Nat.le_of_not_lt ha) hm, Option.getD_none]

/-- What is saved from a state that meets the invariant passes the checks of a `load` (R151). -/
theorem State.Inv.snapshot_valid (hs : s.Inv) : s.snapshot.valid = true :=
  have hlength : s.snapshot.memory.length = 32768 := by rw [snapshot_memory, toCells_length]
  s.snapshot.valid_iff.2 ⟨hlength, rfl, regFile_cells_lt s.regs, hs.stackInRange, hs.pcInRange⟩

/-- Loading a Snapshot of a state that meets the invariant puts its Machine State in place (R159, R176). -/
theorem State.Inv.loadSnapshot_snapshot (hs : s.Inv) (s' : State) :
    Machine.loadSnapshot s.snapshot s' = .ok (s'.loaded s.mem s.regs s.stack s.pc) := by
  rw [Machine.loadSnapshot, if_pos hs.snapshot_valid, snapshot_memory, snapshot_registers, snapshot_stack, snapshot_pc,
    ofCells_toCells hs.memCanonical, regFile_ofCells_cells]

/-- While `Stopped` the bytes saved are those of the Snapshot (R159). -/
theorem saveBytes_stopped (codec : SnapshotCodec Snapshot.valid) (hm : s.mode = .stopped) :
    saveBytes codec s = .ok (codec.encode s.snapshot) := by
  simp only [saveBytes, saveSnapshot, hm, if_true]

/-- The bytes of a valid Snapshot are loaded as that Snapshot (R176, decision D19). -/
theorem loadBytes_encode (codec : SnapshotCodec Snapshot.valid) {n : Snapshot} (hn : n.valid = true) (s : State) :
    loadBytes codec (codec.encode n) s = loadSnapshot n s := by
  simp only [loadBytes, codec.roundTrip n hn]

end

/-- Settles O48: a Snapshot holds the four and nothing else, and a valid one survives the codec. -/
theorem saveThenLoadReproduces : Obligations.SaveThenLoadReproduces := by
  intro codec s s' hs hm
  refine ⟨_, saveBytes_stopped codec hm, _, (loadBytes_encode codec hs.snapshot_valid s').trans (hs.loadSnapshot_snapshot s'),
    rfl, rfl, rfl, rfl, fun u hu hmem hregs hstack hpc => ?_⟩
  have hsnap : u.snapshot = s.snapshot := by simp only [State.snapshot, hmem, hregs, hstack, hpc]
  rw [saveBytes_stopped codec hu, hsnap]

end Sys2Proof.Machine
end

section
/-! PROOFS, family 70_reset_and_hazards: the three outcomes of the load of an image, and where its words go. -/

namespace Sys2Proof.Machine

section
variable {b : List Byte} {s t : State}

/-- An image of an odd number of bytes is refused, whatever its length (R174, decision D16). -/
theorem loadImage_odd (hodd : b.length % 2 = 1) (s : State) : loadImage b s = .error .oddLength := by
  rw [loadImage, if_pos (by omega)]

/-- An image of more Cells than there are is refused (R174, decision D16). -/
theorem loadImage_tooLarge (heven : b.length % 2 = 0) (hlong : 65536 < b.length) (s : State) :
    loadImage b s = .error .tooLarge := by
  rw [loadImage, if_neg (by omega), if_pos (by simpa only [Config.memCells] using hlong)]

/-- Only an image of an even number of bytes that fits is loaded, and this is the state it leaves (R171, R174). -/
theorem loadImage_eq_ok (h : loadImage b s = .ok t) : b.length % 2 = 0 ∧ b.length ≤ 65536 ∧
    t = s.loaded (Memory.ofCells 0 (imageCells b)) {} [] 0 := by
  rcases Nat.mod_two_eq_zero_or_one b.length with heven | hodd
  · rcases Nat.lt_or_ge 65536 b.length with hlong | hfits
    · cases (loadImage_tooLarge heven hlong s).symm.trans h
    · cases (loadImage_ok heven hfits s).symm.trans h
      exact ⟨heven, hfits, rfl⟩
  · cases (loadImage_odd hodd s).symm.trans h

end

/-- Cell `i` of an image is made of bytes `2i` (low) and `2i + 1` (high) (R172). -/
theorem imageCells_getElem? {lo hi : Byte} : ∀ {b : List Byte} {i : Nat}, b[2 * i]? = some lo → b[2 * i + 1]? = some hi →
    (imageCells b)[i]? = some (BitVec.ofNat 16 (lo.toNat + 256 * hi.toNat))
  | [], _, hlo, _ => nomatch hlo
  | [_], _, _, hhi => by simp at hhi
  | _ :: _ :: _, 0, hlo, hhi => by cases hlo; cases hhi; rfl
  | _ :: _ :: rest, i + 1, hlo, hhi => imageCells_getElem? (b := rest) (i := i) hlo hhi

/-- Two bytes fit a Cell, so their number is stored as it is (R172). -/
theorem cellOfBytes_toNat (lo hi : Byte) :
    (BitVec.ofNat 16 (lo.toNat + 256 * hi.toNat)).toNat = lo.toNat + 256 * hi.toNat := by
  rw [BitVec.toNat_ofNat, Nat.mod_eq_of_lt (by have := lo.isLt; have := hi.isLt; omega)]

/-- Settles O45: the loaded memory reads at `i` the Cell `i` of the image, and 0 past its last one. -/
theorem imageWordsGoToLowAddresses : Obligations.ImageWordsGoToLowAddresses := by
  intro b s t h
  obtain ⟨-, -, rfl⟩ := loadImage_eq_ok h
  rw [loaded_mem]
  refine ⟨fun i lo hi hlo hhi => ?_, fun _ => read_image_past⟩
  rw [read_ofCells, if_pos (Nat.zero_le i), Nat.sub_zero, List.getD_eq_getElem?_getD, imageCells_getElem? hlo hhi,
    Option.getD_some, cellOfBytes_toNat]

/-- Settles O47: each of the two is an error of the load, which `perform` answers in the old state. -/
theorem malformedImagesAreRefused : Obligations.MalformedImagesAreRefused := by
  intro b s
  constructor
  · intro hodd
    simp only [perform, loadImage_odd hodd, changed]
  · intro heven hlong
    simp only [perform, loadImage_tooLarge heven hlong, changed]

end Sys2Proof.Machine
end
